-- ==== Sys2Proof/Word.lean ====
section
/-! DEFINITION. The words of the block: bytes, the levels of a pin, and the operand widths of 30_encoding R57. -/

namespace Sys2Proof

/-- A byte: 8 bits, bit 0 the least significant (00_scope R9, section 5.1). -/
abbrev Byte := BitVec 8

/-- An operand of type `bit` (30_encoding R57). -/
abbrev Bit := BitVec 1

/-- An operand of type `u2` (30_encoding R57). -/
abbrev U2 := BitVec 2

/-- An operand of type `u16` (30_encoding R57). -/
abbrev U16 := BitVec 16

end Sys2Proof
end

