-- ==== Sys2Proof/Syntax.lean ====
section
/-! DEFINITION. The operations of the block, one constructor per row of spec/opcode_table.json, and what the host can
present on the request port. -/

namespace Sys2Proof

/-- An instruction: the thirty requests of 30_encoding R57 with their operands in order, then the eighteen `wire.*` rows
of spec/opcode_table.json, the commands of 30_encoding R54 with the fields of their bit patterns (log 5). -/
inductive Instr where
  | wrcmd (b : Byte)
  | wrdat (b : Byte)
  | setContrast (v : Byte)
  | setDispMode (sel : U2)
  | setDisplayOn (on : Bit)
  | setColStart (v : Byte)
  | setAddrMode (mode : U2)
  | setColRange (start stop : Byte)
  | setPageRange (start stop : Byte)
  | setPageStart (page : Byte)
  | setStartLine (line : Byte)
  | setSegRemap (bit : Bit)
  | setMuxRatio (ratio : Byte)
  | setComScan (bit : Bit)
  | setOffset (offset : Byte)
  | setComPins (seq remap : Bit)
  | setClock (divide freq : Byte)
  | setPrecharge (phase1 phase2 : Byte)
  | setVcomh (sel : U2)
  | setChargePump (enable : Bit)
  | clear
  | fill (b : Byte)
  | setPixel (x y : Int) (color : Bit)
  | drawRect (x y w h : Int) (color : Bit)
  | fillRect (x y w h : Int) (color : Bit)
  | drawChar (x y : Int) (ch : Byte)
  | drawString (x y : Int) (t : List Byte)
  | drawBitmap (x y w h : Int) (src : List Byte)
  | drawNumber (x y : Int) (value : U16) (zeroFill : Bit)
  | flush
  | wireContrast (v : Byte)
  | wireDispMode (sel : BitVec 2)
  | wireDisplayOn (o : BitVec 1)
  | wireColStart (l h : BitVec 4)
  | wireAddrMode (m : BitVec 2)
  | wireColRange (start stop : Byte)
  | wirePageRange (start stop : Byte)
  | wirePageStart (p : BitVec 4)
  | wireStartLine (l : BitVec 6)
  | wireSegRemap (b : BitVec 1)
  | wireMuxRatio (r : Byte)
  | wireComScan (b : BitVec 1)
  | wireOffset (o : Byte)
  | wireComPins (r seq : BitVec 1)
  | wireClock (f d : BitVec 4)
  | wirePrecharge (q p : BitVec 4)
  | wireVcomh (c : BitVec 3)
  | wireChargePump (e : BitVec 1)
  deriving DecidableEq, Repr

/-- One operand field of a request, with the type 30_encoding R57 gives it. -/
inductive Operand where
  | u8 (v : Byte)
  | u16 (v : U16)
  | u2 (v : U2)
  | bit (v : Bit)
  | int (v : Int)
  | text (t : List Byte)
  | bytes (s : List Byte)
  deriving DecidableEq, Repr

/-- What the host presents. `request`: a request code and its operands, separate fields beside it (30_encoding R56).
`wire`: one command written out as its frame bytes, which stands for that many consecutive WRCMD requests with nothing
between (70_reset R162; log 5). -/
inductive PortItem where
  | request (op : Byte) (operands : List Operand)
  | wire (frames : List Byte)
  deriving DecidableEq, Repr

/-- Why the decoder, or a meaning, gives a request no meaning (30_encoding R58, 60_exceptions R136). -/
inductive Reject where
  /-- a request code that is not in the table of 30_encoding R57 (30_encoding R58) -/
  | reservedCode (op : Byte)
  /-- the operands presented are not those of the operation (30_encoding R56; log 6) -/
  | malformedOperands (op : Byte)
  /-- SETADDRMODE 3 (30_encoding R58, 41_controller R85) -/
  | reservedOperand
  /-- DRAWBITMAP with a source shorter than `ceil(h/8) * w` (43_glyph R112) -/
  | shortSource
  /-- a text operand that holds the terminator (43_glyph R111); only an ill-formed term, never decoded -/
  | terminatorInText
  /-- wire bytes that match no row of the table (30_encoding R54; log 5) -/
  | unknownCommand
  /-- wire bytes that end before the command does (30_encoding R52, R53; log 5) -/
  | incompleteCommand
  /-- wire bytes that go on after the command (30_encoding R52; log 5) -/
  | trailingBytes
  deriving DecidableEq, Repr

end Sys2Proof
end

