-- ==== Sys2Proof/WellFormed.lean ====
section
/-! DEFINITION. What the operand types of an instruction do not already say: the legal values of 30_encoding R57, R58 and
of the `wire.*` rows of spec/opcode_table.json. -/

namespace Sys2Proof

/-- `ceil(h/8) * w`: the bytes a bitmap source must have when `w > 0` and `h > 0` (20_memory R39, 43_glyph R112). -/
def bitmapBytes (w h : Int) : Nat := ((h.toNat + 7) / 8) * w.toNat

/-- The source of a DRAWBITMAP is too short: its box is not empty and the source ends before it (43_glyph R112). -/
def sourceShort (w h : Int) (src : List Byte) : Bool :=
  decide (0 < w) && decide (0 < h) && decide (src.length < bitmapBytes w h)

/-- The level codes of VCOMH as bits 6..4 of the parameter: 000, 010, 011, 100 (41_controller R97). -/
def vcomhLegal (c : BitVec 3) : Bool := c = 0 || c = 2 || c = 3 || c = 4

/-- Why an instruction is ill-formed, `none` for a well-formed one. -/
def Instr.illFormed : Instr → Option Reject
  | .setAddrMode mode => if mode = 3 then some .reservedOperand else none
  | .drawString _ _ t => if (0 : Byte) ∈ t then some .terminatorInText else none
  | .drawBitmap _ _ w h src => if sourceShort w h src then some .shortSource else none
  | .wireAddrMode m => if m = 3 then some .unknownCommand else none
  | .wireVcomh c => if vcomhLegal c then none else some .unknownCommand
  | .wrcmd _ | .wrdat _ | .setContrast _ | .setDispMode _ | .setDisplayOn _ | .setColStart _ | .setColRange _ _
  | .setPageRange _ _ | .setPageStart _ | .setStartLine _ | .setSegRemap _ | .setMuxRatio _ | .setComScan _
  | .setOffset _ | .setComPins _ _ | .setClock _ _ | .setPrecharge _ _ | .setVcomh _ | .setChargePump _ | .clear
  | .fill _ | .setPixel _ _ _ | .drawRect _ _ _ _ _ | .fillRect _ _ _ _ _ | .drawChar _ _ _ | .drawNumber _ _ _ _
  | .flush | .wireContrast _ | .wireDispMode _ | .wireDisplayOn _ | .wireColStart _ _ | .wireColRange _ _
  | .wirePageRange _ _ | .wirePageStart _ | .wireStartLine _ | .wireSegRemap _ | .wireMuxRatio _ | .wireComScan _
  | .wireOffset _ | .wireComPins _ _ | .wireClock _ _ | .wirePrecharge _ _ | .wireChargePump _ => none

/-- The instruction is one the spec gives a meaning. -/
def Instr.wf (i : Instr) : Bool := i.illFormed.isNone

end Sys2Proof
end

