-- ==== Sys2Proof/Decode.lean ====
section
/-! DEFINITION. From what the host presents to an instruction, total and rejecting by name, and back: request codes and
operands (30_encoding R56, R57), and the `wire.*` rows (30_encoding R52, R54, R55, R60). -/

namespace Sys2Proof

/-! ### Operand shapes of the requests -/

/-- One `u8` operand. -/
def takeU8 (op : Byte) (f : Byte → Instr) : List Operand → Except Reject Instr
  | [.u8 v] => .ok (f v)
  | _ => .error (.malformedOperands op)

/-- Two `u8` operands. -/
def takeU8U8 (op : Byte) (f : Byte → Byte → Instr) : List Operand → Except Reject Instr
  | [.u8 v, .u8 v'] => .ok (f v v')
  | _ => .error (.malformedOperands op)

/-- One `u2` operand. -/
def takeU2 (op : Byte) (f : U2 → Instr) : List Operand → Except Reject Instr
  | [.u2 v] => .ok (f v)
  | _ => .error (.malformedOperands op)

/-- One `bit` operand. -/
def takeBit (op : Byte) (f : Bit → Instr) : List Operand → Except Reject Instr
  | [.bit v] => .ok (f v)
  | _ => .error (.malformedOperands op)

/-- Two `bit` operands. -/
def takeBitBit (op : Byte) (f : Bit → Bit → Instr) : List Operand → Except Reject Instr
  | [.bit v, .bit v'] => .ok (f v v')
  | _ => .error (.malformedOperands op)

/-- No operand. -/
def takeNone (op : Byte) (i : Instr) : List Operand → Except Reject Instr
  | [] => .ok i
  | _ => .error (.malformedOperands op)

/-- `x, y: int`, `color: bit`. -/
def takePixel (op : Byte) (f : Int → Int → Bit → Instr) : List Operand → Except Reject Instr
  | [.int x, .int y, .bit c] => .ok (f x y c)
  | _ => .error (.malformedOperands op)

/-- `x, y, w, h: int`, `color: bit`. -/
def takeBox (op : Byte) (f : Int → Int → Int → Int → Bit → Instr) : List Operand → Except Reject Instr
  | [.int x, .int y, .int w, .int h, .bit c] => .ok (f x y w h c)
  | _ => .error (.malformedOperands op)

/-- `x, y: int`, `ch: u8`. -/
def takeChar (op : Byte) (f : Int → Int → Byte → Instr) : List Operand → Except Reject Instr
  | [.int x, .int y, .u8 ch] => .ok (f x y ch)
  | _ => .error (.malformedOperands op)

/-- `x, y: int`, `t: text`. The operand of DRAWSTRING is the codes before the terminator, code 0 (43_glyph R111, 92 D14):
a presented text that goes on past a terminator is cut there. -/
def takeText (op : Byte) (f : Int → Int → List Byte → Instr) : List Operand → Except Reject Instr
  | [.int x, .int y, .text t] => .ok (f x y (t.takeWhile (· ≠ 0)))
  | _ => .error (.malformedOperands op)

/-- `x, y, w, h: int`, `s: bytes`. -/
def takeBitmap (op : Byte) (f : Int → Int → Int → Int → List Byte → Instr) : List Operand → Except Reject Instr
  | [.int x, .int y, .int w, .int h, .bytes s] => .ok (f x y w h s)
  | _ => .error (.malformedOperands op)

/-- `x, y: int`, `value: u16`, `zeroFill: bit`. -/
def takeNumber (op : Byte) (f : Int → Int → U16 → Bit → Instr) : List Operand → Except Reject Instr
  | [.int x, .int y, .u16 v, .bit z] => .ok (f x y v z)
  | _ => .error (.malformedOperands op)

/-! ### Requests -/

/-- The table of 30_encoding R57: the operation a request code names, with the operands presented beside it. -/
def assembleRequest (op : Byte) (ops : List Operand) : Except Reject Instr :=
  match op.toNat with
  | 0x01 => takeU8 op .wrcmd ops
  | 0x02 => takeU8 op .wrdat ops
  | 0x10 => takeU8 op .setContrast ops
  | 0x11 => takeU2 op .setDispMode ops
  | 0x12 => takeBit op .setDisplayOn ops
  | 0x13 => takeU8 op .setColStart ops
  | 0x14 => takeU2 op .setAddrMode ops
  | 0x15 => takeU8U8 op .setColRange ops
  | 0x16 => takeU8U8 op .setPageRange ops
  | 0x17 => takeU8 op .setPageStart ops
  | 0x18 => takeU8 op .setStartLine ops
  | 0x19 => takeBit op .setSegRemap ops
  | 0x1A => takeU8 op .setMuxRatio ops
  | 0x1B => takeBit op .setComScan ops
  | 0x1C => takeU8 op .setOffset ops
  | 0x1D => takeBitBit op .setComPins ops
  | 0x1E => takeU8U8 op .setClock ops
  | 0x1F => takeU8U8 op .setPrecharge ops
  | 0x20 => takeU2 op .setVcomh ops
  | 0x21 => takeBit op .setChargePump ops
  | 0x40 => takeNone op .clear ops
  | 0x41 => takeU8 op .fill ops
  | 0x42 => takePixel op .setPixel ops
  | 0x43 => takeBox op .drawRect ops
  | 0x44 => takeBox op .fillRect ops
  | 0x45 => takeChar op .drawChar ops
  | 0x46 => takeText op .drawString ops
  | 0x47 => takeBitmap op .drawBitmap ops
  | 0x48 => takeNumber op .drawNumber ops
  | 0x49 => takeNone op .flush ops
  | _ => .error (.reservedCode op)

/-- Rejects an ill-formed instruction by its own reason (30_encoding R58, 60_exceptions R136). -/
def Instr.checked (i : Instr) : Except Reject Instr :=
  match i.illFormed with
  | none => .ok i
  | some r => .error r

/-- A request: assembled, then checked. -/
def decodeRequest (op : Byte) (ops : List Operand) : Except Reject Instr :=
  match assembleRequest op ops with
  | .ok i => i.checked
  | .error r => .error r

/-! ### Commands on the wire -/

/-- Bits `hi..lo` of a byte, `n = hi - lo + 1` of them. -/
def field (b : Byte) (lo n : Nat) : BitVec n := b.extractLsb' lo n

/-- One parameter byte after the opcode; `f` answers `none` where the byte is no value of the row. -/
def wireParam (f : Byte → Option Instr) : List Byte → Except Reject (Instr × List Byte)
  | [] => .error .incompleteCommand
  | v :: rest =>
    match f v with
    | some i => .ok (i, rest)
    | none => .error .unknownCommand

/-- Two parameter bytes after the opcode. -/
def wireParams (f : Byte → Byte → Instr) : List Byte → Except Reject (Instr × List Byte)
  | v :: v' :: rest => .ok (f v v', rest)
  | _ => .error .incompleteCommand

/-- Second half of a column start: `0001hhhh` (30_encoding R54, R55). -/
def wireColHigh (l : BitVec 4) (v : Byte) : Option Instr :=
  if field v 4 4 = 0b0001#4 then some (.wireColStart l (field v 0 4)) else none

/-- Addressing mode: `000000mm`, values 0 to 2. -/
def wireAddrParam (v : Byte) : Option Instr :=
  if v.toNat < 3 then some (.wireAddrMode (field v 0 2)) else none

/-- COM pins: `00rs0010`. -/
def wireComPinsParam (v : Byte) : Option Instr :=
  if v &&& 0xCF = 0x02 then some (.wireComPins (field v 5 1) (field v 4 1)) else none

/-- VCOMH level: `0ccc0000`, ccc one of 000, 010, 011, 100. -/
def wireVcomhParam (v : Byte) : Option Instr :=
  if v &&& 0x8F = 0 && vcomhLegal (field v 4 3) then some (.wireVcomh (field v 4 3)) else none

/-- Charge pump: `00010e00`. -/
def wireChargePumpParam (v : Byte) : Option Instr :=
  if v &&& 0xFB = 0x10 then some (.wireChargePump (field v 2 1)) else none

/-- One command from the front of a list of Command-frame bytes, and the bytes after it. The first byte decides the
command (30_encoding R52, R54); each pattern is the `encoding` of the row in spec/opcode_table.json. -/
def decodeCommand : List Byte → Except Reject (Instr × List Byte)
  | [] => .error .incompleteCommand
  | b :: rest =>
    if field b 4 4 = 0b0000#4 then wireParam (wireColHigh (field b 0 4)) rest
    else if b = 0x20 then wireParam wireAddrParam rest
    else if b = 0x21 then wireParams .wireColRange rest
    else if b = 0x22 then wireParams .wirePageRange rest
    else if field b 6 2 = 0b01#2 then .ok (.wireStartLine (field b 0 6), rest)
    else if b = 0x81 then wireParam (fun v => some (.wireContrast v)) rest
    else if b = 0x8D then wireParam wireChargePumpParam rest
    else if field b 1 7 = 0b1010000#7 then .ok (.wireSegRemap (field b 0 1), rest)
    else if field b 2 6 = 0b101001#6 then .ok (.wireDispMode (field b 0 2), rest)
    else if b = 0xA8 then wireParam (fun v => some (.wireMuxRatio v)) rest
    else if field b 1 7 = 0b1010111#7 then .ok (.wireDisplayOn (field b 0 1), rest)
    else if field b 4 4 = 0b1011#4 then .ok (.wirePageStart (field b 0 4), rest)
    else if b &&& 0xF7 = 0xC0 then .ok (.wireComScan (field b 3 1), rest)
    else if b = 0xD3 then wireParam (fun v => some (.wireOffset v)) rest
    else if b = 0xD5 then wireParam (fun v => some (.wireClock (field v 4 4) (field v 0 4))) rest
    else if b = 0xD9 then wireParam (fun v => some (.wirePrecharge (field v 4 4) (field v 0 4))) rest
    else if b = 0xDA then wireParam wireComPinsParam rest
    else if b = 0xDB then wireParam wireVcomhParam rest
    else .error .unknownCommand

/-- A command presented on its own: exactly one row, nothing after it. -/
def decodeWire (frames : List Byte) : Except Reject Instr :=
  match decodeCommand frames with
  | .ok (i, []) => .ok i
  | .ok (_, _ :: _) => .error .trailingBytes
  | .error r => .error r

/-- The decoder: what the host presents, to an instruction or a rejection by name. -/
def decodeItem : PortItem → Except Reject Instr
  | .request op ops => decodeRequest op ops
  | .wire frames => decodeWire frames

/-! ### The encoder -/

/-- The bytes of a command on the wire, from the `encoding` patterns of the `wire.*` rows, first frame first; none for a
request. -/
def Instr.wireBytes : Instr → List Byte
  | .wireContrast v => [0b10000001#8, v]
  | .wireDispMode sel => [0b101001#6 ++ sel]
  | .wireDisplayOn o => [0b1010111#7 ++ o]
  | .wireColStart l h => [0b0000#4 ++ l, 0b0001#4 ++ h]
  | .wireAddrMode m => [0b00100000#8, 0b000000#6 ++ m]
  | .wireColRange start stop => [0b00100001#8, start, stop]
  | .wirePageRange start stop => [0b00100010#8, start, stop]
  | .wirePageStart p => [0b1011#4 ++ p]
  | .wireStartLine l => [0b01#2 ++ l]
  | .wireSegRemap b => [0b1010000#7 ++ b]
  | .wireMuxRatio r => [0b10101000#8, r]
  | .wireComScan b => [0b1100#4 ++ b ++ 0b000#3]
  | .wireOffset o => [0b11010011#8, o]
  | .wireComPins r seq => [0b11011010#8, 0b00#2 ++ r ++ seq ++ 0b0010#4]
  | .wireClock f d => [0b11010101#8, f ++ d]
  | .wirePrecharge q p => [0b11011001#8, q ++ p]
  | .wireVcomh c => [0b11011011#8, 0b0#1 ++ c ++ 0b0000#4]
  | .wireChargePump e => [0b10001101#8, 0b00010#5 ++ e ++ 0b00#2]
  | .wrcmd _ | .wrdat _ | .setContrast _ | .setDispMode _ | .setDisplayOn _ | .setColStart _ | .setAddrMode _
  | .setColRange _ _ | .setPageRange _ _ | .setPageStart _ | .setStartLine _ | .setSegRemap _ | .setMuxRatio _
  | .setComScan _ | .setOffset _ | .setComPins _ _ | .setClock _ _ | .setPrecharge _ _ | .setVcomh _
  | .setChargePump _ | .clear | .fill _ | .setPixel _ _ _ | .drawRect _ _ _ _ _ | .fillRect _ _ _ _ _
  | .drawChar _ _ _ | .drawString _ _ _ | .drawBitmap _ _ _ _ _ | .drawNumber _ _ _ _ | .flush => []

/-- The encoder: a request as its code and its operands in the order of 30_encoding R57, a `wire.*` row as its bytes. -/
def encode : Instr → PortItem
  | .wrcmd b => .request 0x01 [.u8 b]
  | .wrdat b => .request 0x02 [.u8 b]
  | .setContrast v => .request 0x10 [.u8 v]
  | .setDispMode sel => .request 0x11 [.u2 sel]
  | .setDisplayOn on => .request 0x12 [.bit on]
  | .setColStart v => .request 0x13 [.u8 v]
  | .setAddrMode mode => .request 0x14 [.u2 mode]
  | .setColRange start stop => .request 0x15 [.u8 start, .u8 stop]
  | .setPageRange start stop => .request 0x16 [.u8 start, .u8 stop]
  | .setPageStart page => .request 0x17 [.u8 page]
  | .setStartLine line => .request 0x18 [.u8 line]
  | .setSegRemap bit => .request 0x19 [.bit bit]
  | .setMuxRatio ratio => .request 0x1A [.u8 ratio]
  | .setComScan bit => .request 0x1B [.bit bit]
  | .setOffset offset => .request 0x1C [.u8 offset]
  | .setComPins seq remap => .request 0x1D [.bit seq, .bit remap]
  | .setClock divide freq => .request 0x1E [.u8 divide, .u8 freq]
  | .setPrecharge phase1 phase2 => .request 0x1F [.u8 phase1, .u8 phase2]
  | .setVcomh sel => .request 0x20 [.u2 sel]
  | .setChargePump enable => .request 0x21 [.bit enable]
  | .clear => .request 0x40 []
  | .fill b => .request 0x41 [.u8 b]
  | .setPixel x y color => .request 0x42 [.int x, .int y, .bit color]
  | .drawRect x y w h color => .request 0x43 [.int x, .int y, .int w, .int h, .bit color]
  | .fillRect x y w h color => .request 0x44 [.int x, .int y, .int w, .int h, .bit color]
  | .drawChar x y ch => .request 0x45 [.int x, .int y, .u8 ch]
  | .drawString x y t => .request 0x46 [.int x, .int y, .text t]
  | .drawBitmap x y w h src => .request 0x47 [.int x, .int y, .int w, .int h, .bytes src]
  | .drawNumber x y value zeroFill => .request 0x48 [.int x, .int y, .u16 value, .bit zeroFill]
  | .flush => .request 0x49 []
  | .wireContrast v => .wire (Instr.wireBytes (.wireContrast v))
  | .wireDispMode sel => .wire (Instr.wireBytes (.wireDispMode sel))
  | .wireDisplayOn o => .wire (Instr.wireBytes (.wireDisplayOn o))
  | .wireColStart l h => .wire (Instr.wireBytes (.wireColStart l h))
  | .wireAddrMode m => .wire (Instr.wireBytes (.wireAddrMode m))
  | .wireColRange start stop => .wire (Instr.wireBytes (.wireColRange start stop))
  | .wirePageRange start stop => .wire (Instr.wireBytes (.wirePageRange start stop))
  | .wirePageStart p => .wire (Instr.wireBytes (.wirePageStart p))
  | .wireStartLine l => .wire (Instr.wireBytes (.wireStartLine l))
  | .wireSegRemap b => .wire (Instr.wireBytes (.wireSegRemap b))
  | .wireMuxRatio r => .wire (Instr.wireBytes (.wireMuxRatio r))
  | .wireComScan b => .wire (Instr.wireBytes (.wireComScan b))
  | .wireOffset o => .wire (Instr.wireBytes (.wireOffset o))
  | .wireComPins r seq => .wire (Instr.wireBytes (.wireComPins r seq))
  | .wireClock f d => .wire (Instr.wireBytes (.wireClock f d))
  | .wirePrecharge q p => .wire (Instr.wireBytes (.wirePrecharge q p))
  | .wireVcomh c => .wire (Instr.wireBytes (.wireVcomh c))
  | .wireChargePump e => .wire (Instr.wireBytes (.wireChargePump e))

/-! ### Words numbered as spec/opcode_table.json numbers them -/

/-- The operands of a request code with every field zero: numbers 0, text and bytes empty. None for a reserved code. -/
def zeroOperands (op : Byte) : Option (List Operand) :=
  match op.toNat with
  | 0x01 | 0x02 | 0x10 | 0x13 | 0x17 | 0x18 | 0x1A | 0x1C | 0x41 => some [.u8 0]
  | 0x15 | 0x16 | 0x1E | 0x1F => some [.u8 0, .u8 0]
  | 0x11 | 0x14 | 0x20 => some [.u2 0]
  | 0x12 | 0x19 | 0x1B | 0x21 => some [.bit 0]
  | 0x1D => some [.bit 0, .bit 0]
  | 0x40 | 0x49 => some []
  | 0x42 => some [.int 0, .int 0, .bit 0]
  | 0x43 | 0x44 => some [.int 0, .int 0, .int 0, .int 0, .bit 0]
  | 0x45 => some [.int 0, .int 0, .u8 0]
  | 0x46 => some [.int 0, .int 0, .text []]
  | 0x47 => some [.int 0, .int 0, .int 0, .int 0, .bytes []]
  | 0x48 => some [.int 0, .int 0, .u16 0, .bit 0]
  | _ => none

/-- The bytes of a table word of `n` bytes. The table reads a `wire.*` row as one number with the first frame on the left,
so the first frame is the most significant byte (30_encoding section 1, 98_reader). -/
def wordBytes : Nat → Nat → List Byte
  | 0, _ => []
  | n + 1, w => BitVec.ofNat 8 (w >>> (8 * n)) :: wordBytes n w

/-- A table word as the host would present it: one byte that is a request code is that request with operand fields of
zero; every other word is a command on the wire, and one byte that is neither is a reserved request code. A byte
0x40..0x49 is both a request code and a display start line on the wire; it is taken as the request (log 5). -/
def tableItem (nbits w : Nat) : PortItem :=
  match wordBytes (nbits / 8) w with
  | [b] =>
    match zeroOperands b, decodeWire [b] with
    | some ops, _ => .request b ops
    | none, .ok _ => .wire [b]
    | none, .error _ => .request b []
  | frames => .wire frames

/-- What the decoder reads from an instruction whose table word is `w`, `nbits` long. -/
def decodeTableWord (nbits w : Nat) : Option Instr :=
  match decodeItem (tableItem nbits w) with
  | .ok i => some i
  | .error _ => none

end Sys2Proof
end

