-- ==== Sys2Proof/Config.lean ====
section
/-! DEFINITION. The parameters of an instance (00_scope R7) and the free values: constants without a body, for what the
spec leaves open. -/

namespace Sys2Proof

/-- Wiring variant (00_scope R7): `five` is specified, `four` has no rules and is refused (92 D5). -/
inductive Wiring where
  | five
  | four
  deriving DecidableEq, Repr

/-- Parameters of an instance of the block (00_scope R7). No operation changes any of them (10_state R21). -/
structure Params where
  /-- buffer width in pixels -/
  W : Nat
  /-- buffer height in pixels -/
  H : Nat
  /-- `T_PRE`: reset-high hold time, in ms -/
  tPre : Nat
  /-- `T_LOW`: reset-low hold time, in ms -/
  tLow : Nat
  wiring : Wiring
  /-- `Glyph` (20_memory R38): 96 entries of 5 bytes, `Glyph(ch, col)` at `(ch - 32) * 5 + col` -/
  glyph : List Byte
  deriving DecidableEq, Repr

/-- `NP`, the number of pages (00_scope R7). -/
def Params.NP (p : Params) : Nat := p.H / 8

/-- `NB`, the buffer size in bytes (00_scope R7). -/
def Params.NB (p : Params) : Nat := p.NP * p.W

/-- FREE VALUE. What byte `i` of FB holds before the reset sequence clears it: unspecified (10_state R23, 93 I9; log 2). -/
opaque Config.powerOnByte : Nat → Byte

/-- FREE VALUE. The arbitrary bytes drawn for a character outside 32..127, one for each value of the counter
`State.free` (93 I7, 92 D12; log 4). -/
opaque Config.freeByte : Nat → Byte

/-- FREE VALUE. `Config.glyph ch col`: the glyph table of the instance in `State.reset`; its contents are in no source
(93 I8; log 1). -/
opaque Config.glyph : Nat → Nat → Byte

/-- The instance of `State.reset`: the worked instance of the spec, 128 by 64, holds of 10 and 60 ms
(00_scope R8, 93 I1, I2). DESIGN CHOICE, log 1: statements hold for every instance. -/
def Config.params : Params where
  W := 128
  H := 64
  tPre := 10
  tLow := 60
  wiring := .five
  glyph := (List.range 480).map fun k => Config.glyph (32 + k / 5) (k % 5)

end Sys2Proof
end

