-- ==== Sys2Proof/Machine/State.lean ====
section
/-! DEFINITION. The state of the block (10_state R10) as plain data, its value at block reset (10_state R23), and the
reasons a step can stop (60_exceptions R130, R136). -/

namespace Sys2Proof.Machine

/-- The five output pins (10_state R13). -/
inductive Pin where
  | cs
  | dc
  | res
  | clk
  | dat
  deriving DecidableEq, Repr

/-- A pin latch holds the last level set, or `unset` if it was never set since block reset (10_state R13). -/
inductive Latch where
  | unset
  | level (v : Bool)
  deriving DecidableEq, Repr

/-- The five pin latches. -/
structure Pins where
  cs : Latch
  dc : Latch
  res : Latch
  clk : Latch
  dat : Latch
  deriving DecidableEq, Repr

/-- One event of the trace (10_state R19): a pin write, also one that does not change the level, or a delay of at least
`ms` milliseconds (70_reset R158). -/
inductive Event where
  | pin (p : Pin) (v : Bool)
  | delay (ms : Nat)
  deriving DecidableEq, Repr

/-- The phase (10_state R12). -/
inductive Phase where
  | powerOn
  | ready
  deriving DecidableEq, Repr

/-- The pixel buffer: the bytes that differ from `Memory.unlisted`, by rising index (20_memory R31, R42). -/
abbrev Memory := List Host.Cell

/-- What a byte of FB that is not listed reads as: the reset-sequence zero (20_memory R43). -/
def Memory.unlisted : Byte := 0

/-- The state: FB, the pins, the phase and the trace of 10_state R10; the parameters of the instance, which no step
changes (R21; log 1); and the model's own `port` (log 3) and `free` (log 4). -/
structure State where
  /-- the instance's parameters -/
  inst : Params
  /-- 10_state R12 -/
  phase : Phase
  /-- 10_state R13 -/
  pins : Pins
  /-- `FB`, 10_state R11 -/
  fb : Memory
  /-- the events so far, oldest first, 10_state R19 -/
  trace : List Event
  /-- the model's own: what the host presents, in order, its head now -/
  port : List PortItem
  /-- the model's own: how many arbitrary bytes have been drawn -/
  free : Nat
  deriving DecidableEq, Repr

/-- The block raises no exception and has no fault of any kind (60_exceptions R130; 93: "No behaviour of the block is
`fault`"), so there is no constructor. -/
inductive Fault : Type
  deriving DecidableEq, Repr

/-- Why a request or an instance has no meaning (60_exceptions R136). Every one is safe: no claim follows from a refused
run. -/
inductive Refusal where
  /-- raised by an arm of exec without a meaning (there is none); safe -/
  | notModelled (mnemonic : String)
  /-- raised by step and by every meaning: a request while `phase = PowerOn` (60_exceptions R136); safe -/
  | requestInPowerOn
  /-- raised by step and by every meaning: an instance with `WIRING = Four` (60_exceptions R136); safe -/
  | wiringFour
  /-- raised by step and by every meaning: `W` or `H` not a positive multiple of 8, or `NP > 16` (93 I17; log 7); safe -/
  | illegalDimensions
  /-- raised by step and by every meaning: `T_PRE < 10` or `T_LOW < 60` (00_scope R7; log 7); safe -/
  | illegalHoldTimes
  /-- raised by step and by every meaning: a glyph table that is not 96 by 5 bytes (20_memory R38; log 7); safe -/
  | illegalGlyphTable
  /-- raised by step where the decoder rejects what the host presents, and by SETADDRMODE and DRAWBITMAP on an ill-formed
  operand (60_exceptions R136); safe -/
  | rejected (r : Reject)
  deriving DecidableEq, Repr

/-- Every latch `unset` (10_state R23). -/
def Pins.allUnset : Pins := ⟨.unset, .unset, .unset, .unset, .unset⟩

/-- Just after block reset (10_state R23, 70_reset R150): PowerOn, every pin unset, the trace empty, FB unspecified (read
through `State.readFB`). The instance, the empty port and the counter are the model's choices (log 1, 3, 4). -/
def State.reset : State where
  inst := Config.params
  phase := .powerOn
  pins := Pins.allUnset
  fb := []
  trace := []
  port := []
  free := 0

end Sys2Proof.Machine
end

