-- ==== Sys2Proof/Machine/Operands.lean ====
section
/-! DEFINITION. What the operations compute from their operands alone: the bytes of the commands (30_encoding R55), the
converter and the bounds check (20_memory R32 to R34), boxes and perimeters (42_pixel R104), bits of a bitmap source
(43_glyph R112), glyph columns (20_memory R38), decimal digits (43_glyph R114). The block has no flag (10_state R18), so
there is no flag computation. -/

namespace Sys2Proof.Machine

/-! ### Command bytes. A byte is assembled by OR of fixed bits and shifted fields and cut to 8 bits (30_encoding R55);
over bytes, `|||` and `<<<` cut just so. No operand range is checked (R59). -/

/-- 41_controller R81. -/
def contrastBytes (v : Byte) : List Byte := [0x81, v]

/-- 41_controller R82. -/
def dispModeBytes (sel : U2) : List Byte := [0xA4 ||| sel.setWidth 8]

/-- 41_controller R83. -/
def displayOnBytes (on : Bit) : List Byte := [0xAE ||| on.setWidth 8]

/-- 41_controller R84: low nibble first, then high nibble. -/
def colStartBytes (v : Byte) : List Byte := [v &&& 0x0F, 0x10 ||| (v >>> 4)]

/-- 41_controller R85, for a legal mode. -/
def addrModeBytes (mode : U2) : List Byte := [0x20, mode.setWidth 8]

/-- 41_controller R86. -/
def colRangeBytes (start stop : Byte) : List Byte := [0x21, start, stop]

/-- 41_controller R87. -/
def pageRangeBytes (start stop : Byte) : List Byte := [0x22, start, stop]

/-- 41_controller R88. -/
def pageStartBytes (page : Byte) : List Byte := [0xB0 ||| page]

/-- 41_controller R89. -/
def startLineBytes (line : Byte) : List Byte := [0x40 ||| line]

/-- 41_controller R90. -/
def segRemapBytes (bit : Bit) : List Byte := [0xA0 ||| bit.setWidth 8]

/-- 41_controller R91: the operand is already rows minus one. -/
def muxRatioBytes (ratio : Byte) : List Byte := [0xA8, ratio]

/-- 41_controller R92. -/
def comScanBytes (bit : Bit) : List Byte := [0xC0 ||| (bit.setWidth 8 <<< 3)]

/-- 41_controller R93. -/
def offsetBytes (offset : Byte) : List Byte := [0xD3, offset]

/-- 41_controller R94. -/
def comPinsBytes (seq remap : Bit) : List Byte :=
  [0xDA, (seq.setWidth 8 <<< 4) ||| (remap.setWidth 8 <<< 5) ||| 0x02]

/-- 41_controller R95. -/
def clockBytes (divide freq : Byte) : List Byte := [0xD5, divide ||| (freq <<< 4)]

/-- 41_controller R96. -/
def prechargeBytes (phase1 phase2 : Byte) : List Byte := [0xD9, phase1 ||| (phase2 <<< 4)]

/-- `VC = [0x00, 0x20, 0x30, 0x40]` (41_controller R97). -/
def vcomhCode (sel : U2) : Byte :=
  if sel = 0 then 0x00 else if sel = 1 then 0x20 else if sel = 2 then 0x30 else 0x40

/-- 41_controller R97. -/
def vcomhBytes (sel : U2) : List Byte := [0xDB, vcomhCode sel]

/-- 41_controller R98. -/
def chargePumpBytes (enable : Bit) : List Byte := [0x8D, 0x10 ||| (enable.setWidth 8 <<< 2)]

/-! ### The converter and the bounds check -/

/-- What the converter returns (20_memory R32). -/
structure Place where
  page : Nat
  index : Nat
  bit : Nat
  mask : Byte
  deriving DecidableEq, Repr

/-- The converter of 20_memory R32, for a buffer `W` pixels wide. -/
def convert (W x y : Nat) : Place where
  page := y / 8
  index := (y / 8) * W + x
  bit := y % 8
  mask := 1#8 <<< (y % 8)

/-- The inverse of the converter: from a byte index and a bit to the pixel (20_memory R33). -/
def convertBack (W index bit : Nat) : Nat × Nat := (index % W, (index / W) * 8 + bit)

/-- The bounds check of 20_memory R34, over the integers. -/
def inRange (p : Params) (x y : Int) : Bool :=
  decide (0 ≤ x) && decide (x < (p.W : Int)) && decide (0 ≤ y) && decide (y < (p.H : Int))

/-- The single-bit update of 20_memory R35 on one byte. -/
def updateBit (b mask : Byte) (color : Bit) : Byte :=
  if color = 1 then b ||| mask else b &&& ~~~mask

/-! ### Boxes -/

/-- `for i = a to a + n - 1` (00_scope R9): the integers visited, none if `n <= 0`. -/
def span (a n : Int) : List Int := (List.range n.toNat).map fun (k : Nat) => a + (k : Int)

/-- The pixels of the box of 42_pixel R104, row by row. -/
def boxPixels (x y w h : Int) : List (Int × Int) :=
  (span y h).flatMap fun j => (span x w).map fun i => (i, j)

/-- The perimeter condition of 42_pixel R104. -/
def onPerimeter (x y w h i j : Int) : Bool :=
  decide (i = x) || decide (i = x + w - 1) || decide (j = y) || decide (j = y + h - 1)

/-! ### Bitmap sources -/

/-- Is source column `i`, row `j` on: bit `7 - (j mod 8)` of `Src[(j div 8) * w + i]` (43_glyph R112, 20_memory R40). -/
def sourceBit (w : Nat) (src : List Byte) (i j : Nat) : Bool :=
  (src.getD (j / 8 * w + i) 0).getLsbD (7 - j % 8)

/-- The pixels a DRAWBITMAP plots, column by column (43_glyph R112). -/
def bitmapPixels (x y w h : Int) (src : List Byte) : List (Int × Int) :=
  (List.range w.toNat).flatMap fun (i : Nat) =>
    ((List.range h.toNat).filter (sourceBit w.toNat src i)).map fun (j : Nat) => (x + (i : Int), y + (j : Int))

/-! ### Glyphs -/

/-- The glyph table has an entry for the codes 32..127 (20_memory R38, 90 C9). -/
def inTable (ch : Byte) : Bool := decide (32 ≤ ch.toNat) && decide (ch.toNat ≤ 127)

/-- Column `col` of the glyph of `ch`: the table's byte (20_memory R38), or, for a code without an entry, an arbitrary
byte, the free value number `free + col` (43_glyph R110, 93 I7; log 4). -/
def glyphByte (p : Params) (free : Nat) (ch : Byte) (col : Nat) : Byte :=
  if inTable ch then p.glyph.getD ((ch.toNat - 32) * 5 + col) 0 else Config.freeByte (free + col)

/-! ### Numbers -/

/-- The digits a DRAWNUMBER draws, most significant first (43_glyph R114). -/
def digits (value : Nat) (zeroFill : Bool) : List Nat :=
  let d4 := value / 10000
  let d3 := value / 1000 % 10
  let d2 := value / 100 % 10
  let d1 := value / 10 % 10
  let d0 := value % 10
  if zeroFill then [d4, d3, d2, d1, d0]
  else if d4 ≠ 0 then [d4, d3, d2, d1, d0]
  else if d3 ≠ 0 then [d3, d2, d1, d0]
  else if d2 ≠ 0 then [d2, d1, d0]
  else if d1 ≠ 0 then [d1, d0]
  else [d0]

/-- Character code of digit `d` (43_glyph R113; 93 G1). -/
def digitCode (d : Nat) : Byte := BitVec.ofNat 8 (48 + d)

/-- The text a DRAWNUMBER draws (43_glyph R113). -/
def numberText (value : U16) (zeroFill : Bit) : List Byte :=
  (digits value.toNat (zeroFill == 1)).map digitCode

end Sys2Proof.Machine
end

