-- ==== Sys2Proof/Machine/Ops.lean ====
section
/-! DEFINITION. The shared operations over the state: bytes of FB, pin events, frames, and the acceptance of a request.
The block takes no exception and has no trap (60_exceptions R130, R135), so there is no exception entry and no return. -/

namespace Sys2Proof.Machine

/-- The outcome of a meaning. -/
abbrev Result := Host.Outcome State Fault Refusal

/-! ### Bytes of FB -/

/-- The byte at index `i` of the buffer. -/
def Memory.read : Memory → Nat → Byte
  | [], _ => Memory.unlisted
  | (a, v) :: m, i => if a = i then v else Memory.read m i

/-- The listing of one byte: none where the value is what an unlisted index reads as. -/
def Memory.entry (i : Nat) (v : Byte) : Memory := if v = Memory.unlisted then [] else [(i, v)]

/-- `FB[i] <- v` (00_scope R9), keeping the indices rising and no unlisted value listed. -/
def Memory.write : Memory → Nat → Byte → Memory
  | [], i, v => Memory.entry i v
  | (a, b) :: m, i, v =>
    if i < a then Memory.entry i v ++ (a, b) :: m
    else if i = a then Memory.entry i v ++ m
    else (a, b) :: Memory.write m i v

/-- The canonical form: indices strictly rising, no entry equal to what an unlisted index reads as. -/
abbrev Memory.wf (m : Memory) : Prop :=
  m.Pairwise (fun c d => c.1 < d.1) ∧ ∀ c ∈ m, c.2 ≠ Memory.unlisted

/-- `FB[i]` of a state: unspecified in PowerOn (10_state R23; log 2), the latest write or the reset-sequence zero in Ready
(20_memory R43). -/
def State.readFB (s : State) (i : Nat) : Byte :=
  match s.phase with
  | .powerOn => Config.powerOnByte i
  | .ready => s.fb.read i

/-- The byte OR merge of 20_memory R36. -/
def orByte (fb : Memory) (i : Nat) (v : Byte) : Memory := fb.write i (fb.read i ||| v)

/-- `for i = 0 to NB-1: FB[i] <- b` (42_pixel R102). -/
def fillBytes (p : Params) (b : Byte) (fb : Memory) : Memory :=
  (List.range p.NB).foldl (fun m i => m.write i b) fb

/-- SETPIXEL on the buffer: bounds check, converter, single-bit update (42_pixel R103, 20_memory R34, R35). -/
def putPixel (p : Params) (color : Bit) (fb : Memory) (q : Int × Int) : Memory :=
  if inRange p q.1 q.2 then
    let c := convert p.W q.1.toNat q.2.toNat
    fb.write c.index (updateBit (fb.read c.index) c.mask color)
  else fb

/-- One SETPIXEL for each pixel of a list, in its order (42_pixel R104, R105; 43_glyph R112). -/
def plot (p : Params) (color : Bit) (qs : List (Int × Int)) (fb : Memory) : Memory :=
  qs.foldl (putPixel p color) fb

/-- One glyph column at buffer column `c`: the low part into `page`, the spill into the next page when it exists
(43_glyph R110). A shift by the full width gives 0 (00_scope R9). -/
def mergeColumn (p : Params) (page s c : Nat) (g : Byte) (fb : Memory) : Memory :=
  let low := orByte fb (page * p.W + c) (g <<< s)
  if page + 1 < p.NP then orByte low ((page + 1) * p.W + c) (g >>> (8 - s)) else low

/-- The column loop of 43_glyph R110: left when a column is past the right edge, a column left of 0 skipped. -/
def mergeColumns (p : Params) (x : Int) (page s : Nat) (g : Nat → Byte) : List Nat → Memory → Memory
  | [], fb => fb
  | col :: cols, fb =>
    if (p.W : Int) ≤ x + col then fb
    else if x + col < 0 then mergeColumns p x page s g cols fb
    else mergeColumns p x page s g cols (mergeColumn p page s (x + col).toNat (g col) fb)

/-- One glyph on the buffer, its five column bytes given (43_glyph R110). -/
def mergeGlyph (p : Params) (x y : Int) (g : Nat → Byte) (fb : Memory) : Memory :=
  if y < 0 ∨ (p.H : Int) ≤ y then fb
  else mergeColumns p x (y.toNat / 8) (y.toNat % 8) g [0, 1, 2, 3, 4] fb

/-! ### Pin events and frames -/

/-- `pin[P] <- v` on the latches (10_state R13); a delay drives no pin. -/
def Pins.apply (ps : Pins) : Event → Pins
  | .pin .cs v => { ps with cs := .level v }
  | .pin .dc v => { ps with dc := .level v }
  | .pin .res v => { ps with res := .level v }
  | .pin .clk v => { ps with clk := .level v }
  | .pin .dat v => { ps with dat := .level v }
  | .delay _ => ps

/-- Carries out a sequence of pin writes and delays: the latches take them in order, the trace records every one
(00_scope R9, 10_state R19). -/
def emit (es : List Event) (s : State) : State :=
  { s with pins := es.foldl Pins.apply s.pins, trace := s.trace ++ es }

/-- Command or Data, the mode of a frame (30_encoding R51). -/
inductive Mode where
  | command
  | data
  deriving DecidableEq, Repr

/-- The level of DC: Command is 0, Data is 1 (30_encoding R51). -/
def Mode.level : Mode → Bool
  | .command => false
  | .data => true

/-- A frame: one byte with its mode (30_encoding R50). -/
structure Frame where
  mode : Mode
  byte : Byte
  deriving DecidableEq, Repr

/-- The three events that carry one bit (30_encoding R50). -/
def bitEvents (v : Bool) : List Event := [.pin .dat v, .pin .clk true, .pin .clk false]

/-- The events of `write(m, b)` in order, most significant bit first (40_serial R70). -/
def frameEvents (f : Frame) : List Event :=
  [.pin .cs false, .pin .dc f.mode.level]
    ++ [7, 6, 5, 4, 3, 2, 1, 0].flatMap (fun i => bitEvents (f.byte.getLsbD i))
    ++ [.pin .cs true]

/-- Executes `write` for each frame in order (40_serial R70). -/
def sendFrames (fs : List Frame) (s : State) : State := emit (fs.flatMap frameEvents) s

/-- Bytes as Command frames (30_encoding R52, R53). -/
def commandFrames (bs : List Byte) : List Frame := bs.map (Frame.mk .command)

/-- Sends a command: each of its bytes a Command frame (41_controller R80). -/
def sendCommand (bs : List Byte) (s : State) : State := sendFrames (commandFrames bs) s

/-! ### Acceptance of a request -/

/-- Why an instance is refused (60_exceptions R136, 93 I17, 00_scope R7; log 7). -/
def instanceRefusal (p : Params) : Option Refusal :=
  if p.wiring = .four then some .wiringFour
  else if p.W = 0 ∨ p.W % 8 ≠ 0 ∨ p.H = 0 ∨ p.H % 8 ≠ 0 ∨ 16 < p.NP then some .illegalDimensions
  else if p.tPre < 10 ∨ p.tLow < 60 then some .illegalHoldTimes
  else if p.glyph.length ≠ 480 then some .illegalGlyphTable
  else none

/-- Why a request is refused in a state whatever it is: the instance, or the phase (60_exceptions R136). -/
def requestRefusal (s : State) : Option Refusal :=
  match instanceRefusal s.inst with
  | some r => some r
  | none => if s.phase = .powerOn then some .requestInPowerOn else none

/-- Requests are accepted only in Ready (10_state R12, 30_encoding R56): the operation's next state, or the refusal. -/
def accept (s : State) (after : State) : Result :=
  match requestRefusal s with
  | some r => .refused r
  | none => .next after

/-- As `accept`, for an operation that refuses some operands (60_exceptions R136). -/
def acceptUnless (s : State) (bad : Bool) (r : Reject) (after : State) : Result :=
  match requestRefusal s with
  | some r' => .refused r'
  | none => if bad then .refused (.rejected r) else .next after

/-- Changes FB and nothing else (42_pixel R100). -/
def draw (f : Memory → Memory) (s : State) : State := { s with fb := f s.fb }

/-- DRAWCHAR's effect (43_glyph R110): the glyph's five columns merged; a character without an entry uses up five
arbitrary bytes (93 I7; log 4). -/
def drawGlyph (x y : Int) (ch : Byte) (s : State) : State :=
  { s with
    fb := mergeGlyph s.inst x y (glyphByte s.inst s.free ch) s.fb
    free := if inTable ch then s.free else s.free + 5 }

/-- Draws character after character at a pitch of 6 pixels (43_glyph R111). -/
def drawText (x y : Int) : List Byte → State → State
  | [], s => s
  | ch :: t, s => drawText (x + 6) y t (drawGlyph x y ch s)

end Sys2Proof.Machine
end

