-- ==== Sys2Proof/Machine/Flush.lean ====
section
/-! DEFINITION. FLUSH (44_flush R120): the whole buffer, page by page, through the serial protocol. -/

namespace Sys2Proof.Machine

/-- The frames of one page: SETPAGESTART page, SETCOLSTART 0, then its W bytes as Data frames in column order. -/
def pageFrames (p : Params) (fb : Memory) (page : Nat) : List Frame :=
  commandFrames (pageStartBytes (BitVec.ofNat 8 page) ++ colStartBytes 0)
    ++ (List.range p.W).map fun c => ⟨.data, fb.read (page * p.W + c)⟩

/-- The frames of a flush, pages in order 0 to NP-1. -/
def flushFrames (p : Params) (fb : Memory) : List Frame := (List.range p.NP).flatMap (pageFrames p fb)

/-- FLUSH (44_flush R120). -/
def execFlush (s : State) : Result := accept s (sendFrames (flushFrames s.inst s.fb) s)

end Sys2Proof.Machine
end

