-- ==== Sys2Proof/Machine/Glyphs.lean ====
section
/-! DEFINITION. The glyph, string, bitmap and number operations (43_glyph R110 to R113). Each changes FB alone
(42_pixel R100) and, where a character has no glyph, the model's counter of arbitrary bytes (log 4). -/

namespace Sys2Proof.Machine

/-- DRAWCHAR x, y, ch (43_glyph R110). -/
def execDrawChar (x y : Int) (ch : Byte) (s : State) : Result := accept s (drawGlyph x y ch s)

/-- DRAWSTRING x, y, t (43_glyph R111). -/
def execDrawString (x y : Int) (t : List Byte) (s : State) : Result := accept s (drawText x y t s)

/-- DRAWBITMAP x, y, w, h, s (43_glyph R112): SETPIXEL .., .., 1 for each 1 bit of the source. An empty box draws nothing
and does not read the source; a source too short for its box is refused. -/
def execDrawBitmap (x y w h : Int) (src : List Byte) (s : State) : Result :=
  acceptUnless s (sourceShort w h src) .shortSource (draw (plot s.inst 1 (bitmapPixels x y w h src)) s)

/-- DRAWNUMBER x, y, value, zeroFill (43_glyph R113): the digits as characters at a pitch of 6. -/
def execDrawNumber (x y : Int) (value : U16) (zeroFill : Bit) (s : State) : Result :=
  accept s (drawText x y (numberText value zeroFill) s)

end Sys2Proof.Machine
end

