-- ==== Sys2Proof/Machine/Pixels.lean ====
section
/-! DEFINITION. The buffer fill and pixel operations (42_pixel R101 to R105). Each changes FB alone (R100). -/

namespace Sys2Proof.Machine

/-- CLEAR, which is FILL 0x00 (42_pixel R101). -/
def execClear (s : State) : Result := accept s (draw (fillBytes s.inst 0x00) s)

/-- FILL b (42_pixel R102). -/
def execFill (b : Byte) (s : State) : Result := accept s (draw (fillBytes s.inst b) s)

/-- SETPIXEL x, y, color (42_pixel R103): an out-of-range pixel is silently ignored. -/
def execSetPixel (x y : Int) (color : Bit) (s : State) : Result :=
  accept s (draw (fun fb => putPixel s.inst color fb (x, y)) s)

/-- DRAWRECT x, y, w, h, color (42_pixel R104): SETPIXEL for each perimeter pixel of the box. -/
def execDrawRect (x y w h : Int) (color : Bit) (s : State) : Result :=
  accept s (draw (plot s.inst color ((boxPixels x y w h).filter fun q => onPerimeter x y w h q.1 q.2)) s)

/-- FILLRECT x, y, w, h, color (42_pixel R105): SETPIXEL for each pixel of the box. -/
def execFillRect (x y w h : Int) (color : Bit) (s : State) : Result :=
  accept s (draw (plot s.inst color (boxPixels x y w h)) s)

end Sys2Proof.Machine
end

