-- ==== Sys2Proof/Machine/Serial.lean ====
section
/-! DEFINITION. The serial primitives (40_serial R71, R72). -/

namespace Sys2Proof.Machine

/-- WRCMD b: one Command frame (40_serial R71). -/
def execWrcmd (b : Byte) (s : State) : Result := accept s (sendFrames [⟨.command, b⟩] s)

/-- WRDAT b: one Data frame (40_serial R72). -/
def execWrdat (b : Byte) (s : State) : Result := accept s (sendFrames [⟨.data, b⟩] s)

end Sys2Proof.Machine
end

