-- ==== Sys2Proof/Machine/Setters.lean ====
section
/-! DEFINITION. The eighteen typed setters (41_controller R80 to R98): each sends its bytes as Command frames, reads
nothing but its operands and changes nothing but the serial pins and the trace (R80). -/

namespace Sys2Proof.Machine

/-- SETCONTRAST v (41_controller R81). -/
def execSetContrast (v : Byte) (s : State) : Result := accept s (sendCommand (contrastBytes v) s)

/-- SETDISPMODE sel (41_controller R82). -/
def execSetDispMode (sel : U2) (s : State) : Result := accept s (sendCommand (dispModeBytes sel) s)

/-- SETDISPLAYON on (41_controller R83). -/
def execSetDisplayOn (on : Bit) (s : State) : Result := accept s (sendCommand (displayOnBytes on) s)

/-- SETCOLSTART v (41_controller R84). -/
def execSetColStart (v : Byte) (s : State) : Result := accept s (sendCommand (colStartBytes v) s)

/-- SETADDRMODE mode, legal 0, 1, 2; mode 3 is a reserved operand and refused (41_controller R85, 30_encoding R58). -/
def execSetAddrMode (mode : U2) (s : State) : Result :=
  acceptUnless s (decide (mode = 3)) .reservedOperand (sendCommand (addrModeBytes mode) s)

/-- SETCOLRANGE start, end (41_controller R86). -/
def execSetColRange (start stop : Byte) (s : State) : Result := accept s (sendCommand (colRangeBytes start stop) s)

/-- SETPAGERANGE start, end (41_controller R87). -/
def execSetPageRange (start stop : Byte) (s : State) : Result := accept s (sendCommand (pageRangeBytes start stop) s)

/-- SETPAGESTART page (41_controller R88). -/
def execSetPageStart (page : Byte) (s : State) : Result := accept s (sendCommand (pageStartBytes page) s)

/-- SETSTARTLINE line (41_controller R89). -/
def execSetStartLine (line : Byte) (s : State) : Result := accept s (sendCommand (startLineBytes line) s)

/-- SETSEGREMAP bit (41_controller R90). -/
def execSetSegRemap (bit : Bit) (s : State) : Result := accept s (sendCommand (segRemapBytes bit) s)

/-- SETMUXRATIO ratio (41_controller R91). -/
def execSetMuxRatio (ratio : Byte) (s : State) : Result := accept s (sendCommand (muxRatioBytes ratio) s)

/-- SETCOMSCAN bit (41_controller R92). -/
def execSetComScan (bit : Bit) (s : State) : Result := accept s (sendCommand (comScanBytes bit) s)

/-- SETOFFSET offset (41_controller R93). -/
def execSetOffset (offset : Byte) (s : State) : Result := accept s (sendCommand (offsetBytes offset) s)

/-- SETCOMPINS seq, remap (41_controller R94). -/
def execSetComPins (seq remap : Bit) (s : State) : Result := accept s (sendCommand (comPinsBytes seq remap) s)

/-- SETCLOCK divide, freq (41_controller R95). -/
def execSetClock (divide freq : Byte) (s : State) : Result := accept s (sendCommand (clockBytes divide freq) s)

/-- SETPRECHARGE phase1, phase2 (41_controller R96). -/
def execSetPrecharge (phase1 phase2 : Byte) (s : State) : Result := accept s (sendCommand (prechargeBytes phase1 phase2) s)

/-- SETVCOMH sel (41_controller R97). -/
def execSetVcomh (sel : U2) (s : State) : Result := accept s (sendCommand (vcomhBytes sel) s)

/-- SETCHARGEPUMP enable (41_controller R98). -/
def execSetChargePump (enable : Bit) (s : State) : Result := accept s (sendCommand (chargePumpBytes enable) s)

end Sys2Proof.Machine
end

