-- ==== Sys2Proof/Machine/Wire.lean ====
section
/-! DEFINITION. The `wire.*` rows of spec/opcode_table.json: a command as it stands on the wire. Each sends its bytes, by
the row's bit pattern, as Command frames, which is what as many consecutive WRCMD requests of those bytes do
(30_encoding R62, 70_reset R162, 43_glyph R117; log 5). Nothing on the wire is illegal to the block (30_encoding R59), so
no field value is refused here; the decoder takes only the values the row lists. Also the length of a command by its
first byte (30_encoding R60). -/

namespace Sys2Proof.Machine

/-- How many bytes a command has, by its first byte, as a reader of `frames(trace)` must take it (30_encoding R60). For a
first byte outside the map of R54, which only WRCMD or a too wide operand sends, the spec gives no length; that it stands
alone, length 1, is a DESIGN CHOICE (log 9). -/
def commandLength (b : Byte) : Nat :=
  if b ∈ [0x20#8, 0x81#8, 0x8D#8, 0xA8#8, 0xD3#8, 0xD5#8, 0xD9#8, 0xDA#8, 0xDB#8] then 2
  else if b = 0x21 ∨ b = 0x22 then 3
  else 1

/-- wire.CONTRAST (R81). -/
def execWireContrast (v : Byte) (s : State) : Result := accept s (sendCommand (Instr.wireBytes (.wireContrast v)) s)

/-- wire.DISPMODE (R82). -/
def execWireDispMode (sel : BitVec 2) (s : State) : Result := accept s (sendCommand (Instr.wireBytes (.wireDispMode sel)) s)

/-- wire.DISPLAYON (R83). -/
def execWireDisplayOn (o : BitVec 1) (s : State) : Result := accept s (sendCommand (Instr.wireBytes (.wireDisplayOn o)) s)

/-- wire.COLSTART (R84). -/
def execWireColStart (l h : BitVec 4) (s : State) : Result := accept s (sendCommand (Instr.wireBytes (.wireColStart l h)) s)

/-- wire.ADDRMODE (R85). -/
def execWireAddrMode (m : BitVec 2) (s : State) : Result := accept s (sendCommand (Instr.wireBytes (.wireAddrMode m)) s)

/-- wire.COLRANGE (R86). -/
def execWireColRange (start stop : Byte) (s : State) : Result := accept s (sendCommand (Instr.wireBytes (.wireColRange start stop)) s)

/-- wire.PAGERANGE (R87). -/
def execWirePageRange (start stop : Byte) (s : State) : Result := accept s (sendCommand (Instr.wireBytes (.wirePageRange start stop)) s)

/-- wire.PAGESTART (R88). -/
def execWirePageStart (p : BitVec 4) (s : State) : Result := accept s (sendCommand (Instr.wireBytes (.wirePageStart p)) s)

/-- wire.STARTLINE (R89). -/
def execWireStartLine (l : BitVec 6) (s : State) : Result := accept s (sendCommand (Instr.wireBytes (.wireStartLine l)) s)

/-- wire.SEGREMAP (R90). -/
def execWireSegRemap (b : BitVec 1) (s : State) : Result := accept s (sendCommand (Instr.wireBytes (.wireSegRemap b)) s)

/-- wire.MUXRATIO (R91). -/
def execWireMuxRatio (r : Byte) (s : State) : Result := accept s (sendCommand (Instr.wireBytes (.wireMuxRatio r)) s)

/-- wire.COMSCAN (R92). -/
def execWireComScan (b : BitVec 1) (s : State) : Result := accept s (sendCommand (Instr.wireBytes (.wireComScan b)) s)

/-- wire.OFFSET (R93). -/
def execWireOffset (o : Byte) (s : State) : Result := accept s (sendCommand (Instr.wireBytes (.wireOffset o)) s)

/-- wire.COMPINS (R94). -/
def execWireComPins (r seq : BitVec 1) (s : State) : Result := accept s (sendCommand (Instr.wireBytes (.wireComPins r seq)) s)

/-- wire.CLOCK (R95). -/
def execWireClock (f d : BitVec 4) (s : State) : Result := accept s (sendCommand (Instr.wireBytes (.wireClock f d)) s)

/-- wire.PRECHARGE (R96). -/
def execWirePrecharge (q p : BitVec 4) (s : State) : Result := accept s (sendCommand (Instr.wireBytes (.wirePrecharge q p)) s)

/-- wire.VCOMH (R97). -/
def execWireVcomh (c : BitVec 3) (s : State) : Result := accept s (sendCommand (Instr.wireBytes (.wireVcomh c)) s)

/-- wire.CHARGEPUMP (R98). -/
def execWireChargePump (e : BitVec 1) (s : State) : Result := accept s (sendCommand (Instr.wireBytes (.wireChargePump e)) s)

end Sys2Proof.Machine
end

