-- ==== Sys2Proof/Machine/Dispatch.lean ====
section
/-! DEFINITION. One arm per constructor of Instr, each a direct call of its meaning. -/

namespace Sys2Proof.Machine

def exec (i : Instr) (st : State) : Host.Outcome State Fault Refusal :=
  match i with
  | .wrcmd b => Sys2Proof.Machine.execWrcmd b st
  | .wrdat b => Sys2Proof.Machine.execWrdat b st
  | .setContrast v => Sys2Proof.Machine.execSetContrast v st
  | .setDispMode sel => Sys2Proof.Machine.execSetDispMode sel st
  | .setDisplayOn on => Sys2Proof.Machine.execSetDisplayOn on st
  | .setColStart v => Sys2Proof.Machine.execSetColStart v st
  | .setAddrMode mode => Sys2Proof.Machine.execSetAddrMode mode st
  | .setColRange start stop => Sys2Proof.Machine.execSetColRange start stop st
  | .setPageRange start stop => Sys2Proof.Machine.execSetPageRange start stop st
  | .setPageStart page => Sys2Proof.Machine.execSetPageStart page st
  | .setStartLine line => Sys2Proof.Machine.execSetStartLine line st
  | .setSegRemap bit => Sys2Proof.Machine.execSetSegRemap bit st
  | .setMuxRatio ratio => Sys2Proof.Machine.execSetMuxRatio ratio st
  | .setComScan bit => Sys2Proof.Machine.execSetComScan bit st
  | .setOffset offset => Sys2Proof.Machine.execSetOffset offset st
  | .setComPins seq remap => Sys2Proof.Machine.execSetComPins seq remap st
  | .setClock divide freq => Sys2Proof.Machine.execSetClock divide freq st
  | .setPrecharge phase1 phase2 => Sys2Proof.Machine.execSetPrecharge phase1 phase2 st
  | .setVcomh sel => Sys2Proof.Machine.execSetVcomh sel st
  | .setChargePump enable => Sys2Proof.Machine.execSetChargePump enable st
  | .clear => Sys2Proof.Machine.execClear st
  | .fill b => Sys2Proof.Machine.execFill b st
  | .setPixel x y color => Sys2Proof.Machine.execSetPixel x y color st
  | .drawRect x y w h color => Sys2Proof.Machine.execDrawRect x y w h color st
  | .fillRect x y w h color => Sys2Proof.Machine.execFillRect x y w h color st
  | .drawChar x y ch => Sys2Proof.Machine.execDrawChar x y ch st
  | .drawString x y t => Sys2Proof.Machine.execDrawString x y t st
  | .drawBitmap x y w h src => Sys2Proof.Machine.execDrawBitmap x y w h src st
  | .drawNumber x y value zeroFill => Sys2Proof.Machine.execDrawNumber x y value zeroFill st
  | .flush => Sys2Proof.Machine.execFlush st
  | .wireContrast v => Sys2Proof.Machine.execWireContrast v st
  | .wireDispMode sel => Sys2Proof.Machine.execWireDispMode sel st
  | .wireDisplayOn o => Sys2Proof.Machine.execWireDisplayOn o st
  | .wireColStart l h => Sys2Proof.Machine.execWireColStart l h st
  | .wireAddrMode m => Sys2Proof.Machine.execWireAddrMode m st
  | .wireColRange start stop => Sys2Proof.Machine.execWireColRange start stop st
  | .wirePageRange start stop => Sys2Proof.Machine.execWirePageRange start stop st
  | .wirePageStart p => Sys2Proof.Machine.execWirePageStart p st
  | .wireStartLine l => Sys2Proof.Machine.execWireStartLine l st
  | .wireSegRemap b => Sys2Proof.Machine.execWireSegRemap b st
  | .wireMuxRatio r => Sys2Proof.Machine.execWireMuxRatio r st
  | .wireComScan b => Sys2Proof.Machine.execWireComScan b st
  | .wireOffset o => Sys2Proof.Machine.execWireOffset o st
  | .wireComPins r seq => Sys2Proof.Machine.execWireComPins r seq st
  | .wireClock f d => Sys2Proof.Machine.execWireClock f d st
  | .wirePrecharge q p => Sys2Proof.Machine.execWirePrecharge q p st
  | .wireVcomh c => Sys2Proof.Machine.execWireVcomh c st
  | .wireChargePump e => Sys2Proof.Machine.execWireChargePump e st

end Sys2Proof.Machine
end

