-- ==== Sys2Proof/Machine/Reset.lean ====
section
/-! DEFINITION. The reset sequence, which runs by itself once after block reset (70_reset R151), with the bring-up
(40_serial R74). -/

namespace Sys2Proof.Machine

/-- Steps 1 and 2 of the bring-up: pin defaults and the reset pulse (40_serial R74). -/
def pulseEvents (p : Params) : List Event :=
  [.pin .dc false, .pin .cs false,
   .pin .res true, .delay p.tPre, .pin .res false, .delay p.tLow, .pin .res true]

/-- Step 3 of the bring-up: the bytes of the sixteen configuration setters, strictly in this order (40_serial R74). -/
def configBytes : List Byte :=
  displayOnBytes 0 ++ colStartBytes 0 ++ startLineBytes 0 ++ addrModeBytes 2 ++ contrastBytes 210 ++ segRemapBytes 0
    ++ comScanBytes 0 ++ muxRatioBytes 63 ++ offsetBytes 0 ++ clockBytes 0 8 ++ prechargeBytes 1 15 ++ comPinsBytes 1 0
    ++ vcomhBytes 0 ++ chargePumpBytes 1 ++ dispModeBytes 2 ++ displayOnBytes 1

/-- `reset_sequence()` (70_reset R151): the bring-up, the clear of FB, then Ready. -/
def resetSequence (s : State) : State :=
  { sendCommand configBytes (emit (pulseEvents s.inst) s) with fb := fillBytes s.inst 0x00 s.fb, phase := .ready }

end Sys2Proof.Machine
end

