-- ==== Sys2Proof/Machine/Step.lean ====
section
/-! DEFINITION. One step of the block (10_state R17, 92 D1): the reset sequence, one request, or nothing. -/

namespace Sys2Proof.Machine

/-- One step. In PowerOn with nothing presented the reset sequence runs by itself (70_reset R151), and a request is refused
(60_exceptions R136). In Ready the request presented is taken and run to completion (30_encoding R56); with nothing
presented the block is idle (10_state R17). An instance the spec does not build is refused (60_exceptions R136). -/
def step (s : State) : Host.Outcome State Fault Refusal :=
  match instanceRefusal s.inst with
  | some r => .refused r
  | none =>
    match s.phase, s.port with
    | .powerOn, [] => .next (resetSequence s)
    | .powerOn, _ :: _ => .refused .requestInPowerOn
    | .ready, [] => .next s
    | .ready, item :: rest =>
      match decodeItem item with
      | .error r => .refused (.rejected r)
      | .ok i => exec i { s with port := rest }

/-- The state in which the very next step runs the instruction of a table word (log 3): the reset sequence has run if it
had not, and the host presents that instruction before whatever else it will present. -/
def State.withFetchWord (s : State) (nbits w : Nat) : State :=
  let r := if s.phase = .powerOn then resetSequence s else s
  { r with port := tableItem nbits w :: r.port }

end Sys2Proof.Machine
end

