-- ==== Sys2Proof/Machine/Frames.lean ====
section
/-! DEFINITION. Reading a trace back into frames (40_serial R73): `frames` is what a receiver on the wire sees. -/

namespace Sys2Proof.Machine

/-- Reads `n` bits, most significant first, each the three events of 30_encoding R50, after the bits already read. -/
def readBits : Nat → Byte → List Event → Option (Byte × List Event)
  | 0, b, es => some (b, es)
  | n + 1, b, .pin .dat v :: .pin .clk true :: .pin .clk false :: es =>
    readBits n ((b <<< 1) ||| (BitVec.ofBool v).setWidth 8) es
  | _ + 1, _, _ => none

/-- Reads one frame from the front of a list of events (30_encoding R50), and the events after it. -/
def readFrame : List Event → Option (Frame × List Event)
  | .pin .cs false :: .pin .dc m :: es =>
    match readBits 8 0 es with
    | some (b, .pin .cs true :: es') => some (⟨if m then .data else .command, b⟩, es')
    | _ => none
  | _ => none

/-- Cuts events into frames, and the events that belong to none; `fuel` is at least the number of events. -/
def cutFrames : Nat → List Event → List Frame × List Event
  | 0, es => ([], es)
  | _ + 1, [] => ([], [])
  | fuel + 1, e :: es =>
    match readFrame (e :: es) with
    | some (f, rest) => let r := cutFrames fuel rest; (f :: r.1, r.2)
    | none => let r := cutFrames fuel es; (r.1, e :: r.2)

/-- `frames(trace)` (40_serial R73). -/
def frames (trace : List Event) : List Frame := (cutFrames trace.length trace).1

/-- The events of a trace that are part of no frame (40_serial R73). -/
def outsideFrames (trace : List Event) : List Event := (cutFrames trace.length trace).2

end Sys2Proof.Machine
end

