-- ==== Sys2Proof/Safety.lean ====
section
/-! DEFINITION. What a state of a run from block reset looks like, and what a safe run is, in the terms statements use. -/

namespace Sys2Proof.Machine

/-- The instance is one the spec builds (00_scope R7, 20_memory R41, 93 I17). -/
abbrev instLegal (p : Params) : Prop := instanceRefusal p = none

/-- The block takes a request: the instance is legal and the phase is Ready (30_encoding R56). -/
abbrev State.accepting (s : State) : Prop := instLegal s.inst ∧ s.phase = .ready

/-- FB holds nothing outside its `NB` bytes (20_memory R31: bytes not covering a valid pixel are never addressed). -/
abbrev State.fbInside (s : State) : Prop := ∀ c ∈ s.fb, c.1 < s.inst.NB

/-- Is pixel `(x, y)` of the buffer on: bit `y mod 8` of byte `(y div 8) * W + x` (20_memory R31); off outside the
buffer. -/
def pixelOn (p : Params) (fb : Memory) (x y : Int) : Bool :=
  inRange p x y && (fb.read (y.toNat / 8 * p.W + x.toNat)).getLsbD (y.toNat % 8)

/-- The frames of the bring-up (40_serial R75). -/
def bringupFrames : List Frame := commandFrames configBytes

/-- What holds at block reset and after every step. -/
structure State.Inv (s : State) : Prop where
  /-- FB is in canonical form -/
  fbWf : s.fb.wf
  /-- and inside its bounds -/
  fbIn : s.fbInside
  /-- the latches hold the last level the trace records for each pin (10_state R13, R19) -/
  pinsOfTrace : s.pins = s.trace.foldl Pins.apply Pins.allUnset
  /-- before the reset sequence nothing has been written or sent (10_state R23) -/
  powerOnBlank : s.phase = .powerOn → s.fb = [] ∧ s.trace = []
  /-- after it the trace is the reset pulse, the bring-up frames and then whole frames (40_serial R73, R75) -/
  readyTrace : s.phase = .ready →
    ∃ fs, s.trace = pulseEvents s.inst ++ (bringupFrames ++ fs).flatMap frameEvents

/-- A run is safe as long as every step answers a next state; the block has no fault, so only a refusal ends it
(60_exceptions R130, R136). -/
def safeFor : Nat → State → Prop
  | 0, _ => True
  | n + 1, s => ∃ t, step s = .next t ∧ safeFor n t

end Sys2Proof.Machine
end

