-- ==== Sys2Proof/Certificates/Slice0/Obligations.lean ====
section
/-! DEFINITION. The statements for the provers. Each formalises the rule of spec/ its docstring cites; the helpers below
write the spec's own tables and formulas out again, apart from the model's definitions. -/

namespace Sys2Proof.Spec

open Sys2Proof.Machine

/-- `trunc8(v) = v mod 256` (00_scope R9). -/
def trunc8 (v : Nat) : Byte := BitVec.ofNat 8 v

/-- The 27 events of a frame, row by row of the table of 30_encoding R50. -/
def frame27 (m : Bool) (b : Byte) : List Event :=
  [.pin .cs false, .pin .dc m,
   .pin .dat (b.getLsbD 7), .pin .clk true, .pin .clk false,
   .pin .dat (b.getLsbD 6), .pin .clk true, .pin .clk false,
   .pin .dat (b.getLsbD 5), .pin .clk true, .pin .clk false,
   .pin .dat (b.getLsbD 4), .pin .clk true, .pin .clk false,
   .pin .dat (b.getLsbD 3), .pin .clk true, .pin .clk false,
   .pin .dat (b.getLsbD 2), .pin .clk true, .pin .clk false,
   .pin .dat (b.getLsbD 1), .pin .clk true, .pin .clk false,
   .pin .dat (b.getLsbD 0), .pin .clk true, .pin .clk false,
   .pin .cs true]

/-- The state after `write(m, b)` as 40_serial R70 gives it: CS 1, DC m, CLK 0, DAT b[0], RES as before, 27 events more,
nothing else changed. -/
def afterFrame (s : State) (f : Bool × Byte) : State :=
  { s with
    pins := ⟨.level true, .level f.1, s.pins.res, .level false, .level (f.2.getLsbD 0)⟩
    trace := s.trace ++ frame27 f.1 f.2 }

/-- The state after frames sent one after another. -/
def afterFrames (s : State) (fs : List (Bool × Byte)) : State := fs.foldl afterFrame s

/-- The state after bytes sent as Command frames. -/
def afterCommand (s : State) (bs : List Byte) : State := afterFrames s (bs.map fun b => (false, b))

/-- Requests run one after another, as the host presents them (20_memory R43); it stops at the first refusal. -/
def runAll : List Instr → State → Result
  | [], s => .next s
  | i :: is, s =>
    match exec i s with
    | .next t => runAll is t
    | .fault r => .fault r
    | .refused r => .refused r

/-- Pixel `(x, y)` of a state's buffer, read through the state's read of one byte (20_memory R31). -/
def pix (s : State) (x y : Int) : Bool :=
  (s.readFB (y.toNat / 8 * s.inst.W + x.toNat)).getLsbD (y.toNat % 8)

/-- `0 <= x < W` and `0 <= y < H` over the integers (20_memory R34). -/
def onBuffer (s : State) (x y : Int) : Prop := 0 ≤ x ∧ x < s.inst.W ∧ 0 ≤ y ∧ y < s.inst.H

/-- The index of the byte that holds pixel `(x, y)`, by the converter the meanings use (20_memory R32). -/
def byteOf (s : State) (x y : Int) : Nat := (convert s.inst.W x.toNat y.toNat).index

/-- FB and nothing else differs. -/
def onlyFB (s t : State) : Prop := { t with fb := s.fb } = s

/-- FB and the model's counter of arbitrary bytes (log 4), and nothing else, differ. -/
def onlyFBFree (s t : State) : Prop := { t with fb := s.fb, free := s.free } = s

/-- The operations of 42_pixel and 43_glyph. -/
def isDrawing : Instr → Bool
  | .clear | .fill _ | .setPixel _ _ _ | .drawRect _ _ _ _ _ | .fillRect _ _ _ _ _ | .drawChar _ _ _
  | .drawString _ _ _ | .drawBitmap _ _ _ _ _ | .drawNumber _ _ _ _ => true
  | _ => false

/-- The eighteen setters of 41_controller. -/
def isSetter : Instr → Bool
  | .setContrast _ | .setDispMode _ | .setDisplayOn _ | .setColStart _ | .setAddrMode _ | .setColRange _ _
  | .setPageRange _ _ | .setPageStart _ | .setStartLine _ | .setSegRemap _ | .setMuxRatio _ | .setComScan _
  | .setOffset _ | .setComPins _ _ | .setClock _ _ | .setPrecharge _ _ | .setVcomh _ | .setChargePump _ => true
  | _ => false

/-- How many frames an operation appends: a function of its mnemonic, W and H alone (43_glyph R116; the formats of
30_encoding R54). -/
def frameCount (p : Params) : Instr → Nat
  | .wrcmd _ | .wrdat _ => 1
  | .setDispMode _ | .setDisplayOn _ | .setPageStart _ | .setStartLine _ | .setSegRemap _ | .setComScan _ => 1
  | .setContrast _ | .setColStart _ | .setAddrMode _ | .setMuxRatio _ | .setOffset _ | .setComPins _ _ | .setClock _ _
  | .setPrecharge _ _ | .setVcomh _ | .setChargePump _ => 2
  | .setColRange _ _ | .setPageRange _ _ => 3
  | .wireDispMode _ | .wireDisplayOn _ | .wirePageStart _ | .wireStartLine _ | .wireSegRemap _ | .wireComScan _ => 1
  | .wireContrast _ | .wireColStart _ _ | .wireAddrMode _ | .wireMuxRatio _ | .wireOffset _ | .wireComPins _ _
  | .wireClock _ _ | .wirePrecharge _ _ | .wireVcomh _ | .wireChargePump _ => 2
  | .wireColRange _ _ | .wirePageRange _ _ => 3
  | .flush => (p.H / 8) * (3 + p.W)
  | .clear | .fill _ | .setPixel _ _ _ | .drawRect _ _ _ _ _ | .fillRect _ _ _ _ _ | .drawChar _ _ _
  | .drawString _ _ _ | .drawBitmap _ _ _ _ _ | .drawNumber _ _ _ _ => 0

/-- A presented text operand without what stands from its terminator on (20_memory R39, 43_glyph R111). -/
def cutText : Operand → Operand
  | .text t => .text (t.takeWhile (· ≠ 0))
  | o => o

/-- The events on RES and the delays of a trace, in order. -/
def resAndDelays (trace : List Event) : List Event :=
  trace.filter fun e => match e with
    | .pin .res _ => true
    | .delay _ => true
    | _ => false

/-- The request codes of the table of 30_encoding R57. -/
def requestCodes : List Nat :=
  [0x01, 0x02, 0x10, 0x11, 0x12, 0x13, 0x14, 0x15, 0x16, 0x17, 0x18, 0x19, 0x1A, 0x1B, 0x1C, 0x1D, 0x1E, 0x1F, 0x20,
   0x21, 0x40, 0x41, 0x42, 0x43, 0x44, 0x45, 0x46, 0x47, 0x48, 0x49]

/-- The 26 bytes of the bring-up, in the order of 40_serial R75. -/
def bringupBytes : List Byte :=
  [0xAE, 0x00, 0x10, 0x40, 0x20, 0x02, 0x81, 0xD2, 0xA0, 0xC0, 0xA8, 0x3F, 0xD3, 0x00, 0xD5, 0x80, 0xD9, 0xF1, 0xDA,
   0x12, 0xDB, 0x00, 0x8D, 0x14, 0xA6, 0xAF]

/-- The 7 events of steps 1 and 2 of the bring-up (40_serial R75). -/
def pulse (p : Params) : List Event :=
  [.pin .dc false, .pin .cs false, .pin .res true, .delay p.tPre, .pin .res false, .delay p.tLow, .pin .res true]

/-- The frames of a flush by 44_flush R120. -/
def flushSpec (s : State) : List (Bool × Byte) :=
  (List.range (s.inst.H / 8)).flatMap fun p =>
    [(false, trunc8 (0xB0 ||| p)), (false, 0x00), (false, 0x10)]
      ++ (List.range s.inst.W).map fun c => (true, s.readFB (p * s.inst.W + c))

/-- The five decimal digits of a value, ten-thousands first (43_glyph R113). -/
def fiveDigits (v : Nat) : List Nat := [10000, 1000, 100, 10, 1].map fun q => v / q % 10

/-- The digits drawn: all five with zeroFill, else without the leading zeros among the first four (43_glyph R113, R114). -/
def shownDigits (v : Nat) (zeroFill : Bit) : List Nat :=
  if zeroFill = 1 then fiveDigits v
  else ((fiveDigits v).take 4).dropWhile (· = 0) ++ [v % 10]

end Sys2Proof.Spec

open Sys2Proof Sys2Proof.Machine Sys2Proof.Spec

/-! ### Encoding -/

/-- Words and requests written out from 30_encoding R57 and the patterns of opcode_table.json decode to what they stand
for. All the clauses of `decodeTableWord` are the model's choice of log 5: a one-byte table word that is a request code
(0x40, 0x02) is that request with operands of zero, 0x40 to 0x49 before the start line, and a `wire.*` word is an
instruction. -/
def Obligations.TableWordsDecode : Prop :=
  decodeTableWord 8 0x40 = some .clear
    ∧ decodeTableWord 8 0x02 = some (.wrdat 0)
    ∧ decodeItem (.request 0x1D [.bit 1, .bit 0]) = .ok (.setComPins 1 0)
    ∧ decodeItem (.request 0x42 [.int 5, .int (-3), .bit 1]) = .ok (.setPixel 5 (-3) 1)
    ∧ decodeItem (.request 0x48 [.int 0, .int 0, .u16 65535, .bit 1]) = .ok (.drawNumber 0 0 65535 1)
    ∧ decodeTableWord 16 0b1101101000010010 = some (.wireComPins 0 1)
    ∧ decodeTableWord 24 0b001000010000010100001001 = some (.wireColRange 5 9)
    ∧ decodeTableWord 8 0b11001000 = some (.wireComScan 1)

/-- Decode and encode agree: every well-formed instruction, with every operand at every value, is what its encoding
decodes to (30_encoding R54, R57). -/
def Obligations.DecodeOfEncodeIsTheInstruction : Prop :=
  ∀ i : Instr, i.wf = true → decodeItem (encode i) = .ok i

/-- What the decoder accepts is well formed (30_encoding R57, R58). For the `wire.*` rows that no unlisted value is accepted
(mode 3, another VCOMH code) is the model's choice (log 5): on the wire nothing is illegal to the block (R59). -/
def Obligations.DecodedIsWellFormed : Prop :=
  ∀ (item : PortItem) (i : Instr), decodeItem item = .ok i → i.wf = true

/-- Every row of the table of 30_encoding R57: its code, with its operands in order, decodes to its operation, at every
legal operand value. -/
def Obligations.RequestTableDecodes : Prop :=
  (∀ b, decodeItem (.request 0x01 [.u8 b]) = .ok (.wrcmd b))
    ∧ (∀ b, decodeItem (.request 0x02 [.u8 b]) = .ok (.wrdat b))
    ∧ (∀ v, decodeItem (.request 0x10 [.u8 v]) = .ok (.setContrast v))
    ∧ (∀ sel, decodeItem (.request 0x11 [.u2 sel]) = .ok (.setDispMode sel))
    ∧ (∀ on, decodeItem (.request 0x12 [.bit on]) = .ok (.setDisplayOn on))
    ∧ (∀ v, decodeItem (.request 0x13 [.u8 v]) = .ok (.setColStart v))
    ∧ (∀ mode, mode ≠ 3 → decodeItem (.request 0x14 [.u2 mode]) = .ok (.setAddrMode mode))
    ∧ (∀ a b, decodeItem (.request 0x15 [.u8 a, .u8 b]) = .ok (.setColRange a b))
    ∧ (∀ a b, decodeItem (.request 0x16 [.u8 a, .u8 b]) = .ok (.setPageRange a b))
    ∧ (∀ page, decodeItem (.request 0x17 [.u8 page]) = .ok (.setPageStart page))
    ∧ (∀ line, decodeItem (.request 0x18 [.u8 line]) = .ok (.setStartLine line))
    ∧ (∀ b, decodeItem (.request 0x19 [.bit b]) = .ok (.setSegRemap b))
    ∧ (∀ ratio, decodeItem (.request 0x1A [.u8 ratio]) = .ok (.setMuxRatio ratio))
    ∧ (∀ b, decodeItem (.request 0x1B [.bit b]) = .ok (.setComScan b))
    ∧ (∀ offset, decodeItem (.request 0x1C [.u8 offset]) = .ok (.setOffset offset))
    ∧ (∀ seq remap, decodeItem (.request 0x1D [.bit seq, .bit remap]) = .ok (.setComPins seq remap))
    ∧ (∀ divide freq, decodeItem (.request 0x1E [.u8 divide, .u8 freq]) = .ok (.setClock divide freq))
    ∧ (∀ p q, decodeItem (.request 0x1F [.u8 p, .u8 q]) = .ok (.setPrecharge p q))
    ∧ (∀ sel, decodeItem (.request 0x20 [.u2 sel]) = .ok (.setVcomh sel))
    ∧ (∀ enable, decodeItem (.request 0x21 [.bit enable]) = .ok (.setChargePump enable))
    ∧ decodeItem (.request 0x40 []) = .ok .clear
    ∧ (∀ b, decodeItem (.request 0x41 [.u8 b]) = .ok (.fill b))
    ∧ (∀ x y c, decodeItem (.request 0x42 [.int x, .int y, .bit c]) = .ok (.setPixel x y c))
    ∧ (∀ x y w h c, decodeItem (.request 0x43 [.int x, .int y, .int w, .int h, .bit c]) = .ok (.drawRect x y w h c))
    ∧ (∀ x y w h c, decodeItem (.request 0x44 [.int x, .int y, .int w, .int h, .bit c]) = .ok (.fillRect x y w h c))
    ∧ (∀ x y ch, decodeItem (.request 0x45 [.int x, .int y, .u8 ch]) = .ok (.drawChar x y ch))
    ∧ (∀ x y t, (0 : Byte) ∉ t → decodeItem (.request 0x46 [.int x, .int y, .text t]) = .ok (.drawString x y t))
    ∧ (∀ x y w h src, (0 < w → 0 < h → (h.toNat + 7) / 8 * w.toNat ≤ src.length) →
        decodeItem (.request 0x47 [.int x, .int y, .int w, .int h, .bytes src]) = .ok (.drawBitmap x y w h src))
    ∧ (∀ x y v z, decodeItem (.request 0x48 [.int x, .int y, .u16 v, .bit z]) = .ok (.drawNumber x y v z))
    ∧ decodeItem (.request 0x49 []) = .ok .flush

/-- A request decodes to an instruction only if it is that instruction's own encoding, a text operand cut at its terminator
(30_encoding R57; log 6 for the cut). -/
def Obligations.RequestDecodesOnlyFromItsEncoding : Prop :=
  ∀ (op : Byte) (ops : List Operand) (i : Instr),
    decodeItem (.request op ops) = .ok i → encode i = .request op (ops.map cutText)

/-- Bytes decode to a command only if they are that command's own bytes: no two rows overlap and no bit is dropped
(30_encoding R54). -/
def Obligations.WireDecodesOnlyFromItsBytes : Prop :=
  ∀ (bs : List Byte) (i : Instr), decodeItem (.wire bs) = .ok i → encode i = .wire bs

/-- Reserved request codes and SETADDRMODE 3 are refused by name (30_encoding R58). -/
def Obligations.ReservedRequestsRefused : Prop :=
  ∀ (s : State) (rest : List PortItem), s.accepting →
    (∀ (op : Byte) (ops : List Operand), op.toNat ∉ requestCodes → s.port = .request op ops :: rest →
      step s = .refused (.rejected (.reservedCode op)))
    ∧ (s.port = .request 0x14 [.u2 3] :: rest → step s = .refused (.rejected .reservedOperand))
    ∧ exec (.setAddrMode 3) s = .refused (.rejected .reservedOperand)

/-- The length of every command on the wire is the one its first byte decides; the two halves of a column start stand
alone, one byte each (30_encoding R60). -/
def Obligations.FirstByteDecidesCommandLength : Prop :=
  ∀ i : Instr, i.wf = true → i.wireBytes ≠ [] →
    (∃ b rest, i.wireBytes = b :: rest ∧ commandLength b = rest.length + 1)
      ∨ (∃ l h b c, i = .wireColStart l h ∧ i.wireBytes = [b, c] ∧ commandLength b = 1 ∧ commandLength c = 1)

/-! ### The converter -/

/-- The converter and its inverse undo each other and stay in range (20_memory R32, R33). -/
def Obligations.ConverterIsABijection : Prop :=
  ∀ p : Params, 0 < p.W → p.H = 8 * p.NP →
    (∀ x y : Nat, x < p.W → y < p.H →
      (convert p.W x y).page = y / 8 ∧ (convert p.W x y).bit = y % 8 ∧ (convert p.W x y).index = y / 8 * p.W + x
      ∧ (convert p.W x y).page < p.NP ∧ (convert p.W x y).index < p.NB ∧ (convert p.W x y).bit ≤ 7
      ∧ (convert p.W x y).mask = trunc8 (2 ^ (convert p.W x y).bit)
      ∧ convertBack p.W (convert p.W x y).index (convert p.W x y).bit = (x, y))
    ∧ (∀ index bit : Nat, index < p.NB → bit ≤ 7 →
      (convertBack p.W index bit).1 < p.W ∧ (convertBack p.W index bit).2 < p.H
      ∧ (convert p.W (convertBack p.W index bit).1 (convertBack p.W index bit).2).index = index
      ∧ (convert p.W (convertBack p.W index bit).1 (convertBack p.W index bit).2).bit = bit)

/-! ### Reset and steps -/

/-- Block reset: PowerOn, no event, every pin unset (10_state R23, 70_reset R150). That FB is unspecified is the free
value of log 2. -/
def Obligations.BlockResetValues : Prop :=
  State.reset.phase = .powerOn ∧ State.reset.trace = []
    ∧ State.reset.pins = ⟨.unset, .unset, .unset, .unset, .unset⟩
    ∧ ∀ i, State.reset.readFB i = Config.powerOnByte i

/-- The reset sequence, from PowerOn with nothing presented, on every instance: FB all zero, the pins, Ready, and the 709
events (40_serial R75, 70_reset R152). -/
def Obligations.ResetSequenceLeavesReady : Prop :=
  ∀ s : State, instLegal s.inst → s.phase = .powerOn → s.port = [] → s.trace = [] → s.fb.wf →
    ∃ t, step s = .next t
      ∧ (∀ i < s.inst.NB, t.readFB i = 0x00)
      ∧ t.pins = ⟨.level true, .level false, .level true, .level false, .level true⟩
      ∧ t.phase = .ready
      ∧ t.trace = pulse s.inst ++ bringupBytes.flatMap (frame27 false)
      ∧ t.trace.length = 709
      ∧ t.inst = s.inst ∧ t.port = []

/-- A request in PowerOn is refused and nothing runs (60_exceptions R136, 10_state R12). -/
def Obligations.RequestInPowerOnRefused : Prop :=
  ∀ s : State, instLegal s.inst → s.phase = .powerOn →
    (s.port ≠ [] → step s = .refused .requestInPowerOn) ∧ ∀ i : Instr, exec i s = .refused .requestInPowerOn

/-- An instance with four-line wiring, or whose W or H is not a positive multiple of 8, is refused (60_exceptions R136). -/
def Obligations.UnbuiltInstanceRefused : Prop :=
  ∀ s : State,
    (s.inst.wiring = .four → step s = .refused .wiringFour ∧ ∀ i, exec i s = .refused .wiringFour)
    ∧ (s.inst.wiring = .five →
        s.inst.W = 0 ∨ s.inst.W % 8 ≠ 0 ∨ s.inst.H = 0 ∨ s.inst.H % 8 ≠ 0 →
        step s = .refused .illegalDimensions ∧ ∀ i, exec i s = .refused .illegalDimensions)

/-- The other instances the spec does not build: more than 16 pages (93 I17), hold times below the minima or a glyph table
of another size (00_scope R7, 20_memory R38; the refusals are the model's choice, log 7). -/
def Obligations.InstanceLimitsRefused : Prop :=
  ∀ s : State, s.inst.wiring = .five → 0 < s.inst.W → s.inst.W % 8 = 0 → 0 < s.inst.H → s.inst.H % 8 = 0 →
    (16 < s.inst.H / 8 → step s = .refused .illegalDimensions)
    ∧ (s.inst.H / 8 ≤ 16 →
      (s.inst.tPre < 10 ∨ s.inst.tLow < 60 → step s = .refused .illegalHoldTimes)
      ∧ (10 ≤ s.inst.tPre → 60 ≤ s.inst.tLow →
        (s.inst.glyph.length ≠ 480 → step s = .refused .illegalGlyphTable)
        ∧ (s.inst.glyph.length = 480 → s.phase = .ready → s.accepting)))

/-- A step in Ready runs the instruction the decoder reads from what is presented (30_encoding R56); what the decoder rejects
is refused by the same reason. That the item is taken from a port in the state, and that with nothing presented a step
answers the same state, is the model's choice (log 3). -/
def Obligations.StepRunsTheDecodedInstruction : Prop :=
  ∀ s : State, s.accepting →
    (∀ item rest i, s.port = item :: rest → decodeItem item = .ok i → step s = exec i { s with port := rest })
    ∧ (∀ item rest r, s.port = item :: rest → decodeItem item = .error r → step s = .refused (.rejected r))
    ∧ (s.port = [] → step s = .next s)

/-- No request that could run is refused: in Ready every instruction answers a next state but SETADDRMODE 3 and a
DRAWBITMAP with a short source (60_exceptions R136, R130). That characters outside 32..127 complete is the model's choice
(log 4; R136 lets a model refuse them), and so is that a text with a 0 in it does (log 6) and that the `wire.*` rows do,
unlisted values included (log 5). -/
def Obligations.EveryAcceptedRequestCompletes : Prop :=
  ∀ (i : Instr) (s : State), s.accepting →
    ((∃ t, exec i s = .next t) ↔
      i ≠ .setAddrMode 3 ∧ ∀ x y w h src, i = .drawBitmap x y w h src → 0 < w → 0 < h →
        (h.toNat + 7) / 8 * w.toNat ≤ src.length)

/-! ### Serial primitives and setters -/

/-- WRCMD and WRDAT send one frame of 27 events (30_encoding R50, 40_serial R70, R71, R72). -/
def Obligations.WriteSendsOneFrame : Prop :=
  ∀ (s : State) (b : Byte), s.accepting →
    exec (.wrcmd b) s = .next (afterFrame s (false, b)) ∧ exec (.wrdat b) s = .next (afterFrame s (true, b))
      ∧ decodeItem (.request 0x01 [.u8 b]) = .ok (.wrcmd b) ∧ decodeItem (.request 0x02 [.u8 b]) = .ok (.wrdat b)

/-- The one-frame setters (41_controller R82, R83, R88, R89, R90, R92). -/
def Obligations.OneFrameSettersSendTheirByte : Prop :=
  ∀ s : State, s.accepting →
    (∀ sel, exec (.setDispMode sel) s = .next (afterCommand s [trunc8 (0xA4 ||| sel.toNat)]))
    ∧ (∀ on, exec (.setDisplayOn on) s = .next (afterCommand s [trunc8 (0xAE ||| on.toNat)]))
    ∧ (∀ page, exec (.setPageStart page) s = .next (afterCommand s [trunc8 (0xB0 ||| page.toNat)]))
    ∧ (∀ line, exec (.setStartLine line) s = .next (afterCommand s [trunc8 (0x40 ||| line.toNat)]))
    ∧ (∀ bit, exec (.setSegRemap bit) s = .next (afterCommand s [trunc8 (0xA0 ||| bit.toNat)]))
    ∧ (∀ bit, exec (.setComScan bit) s = .next (afterCommand s [trunc8 (0xC0 ||| (bit.toNat <<< 3))]))

/-- The two-frame setters with an opcode and a parameter (41_controller R81, R85, R91, R93 to R98). -/
def Obligations.TwoFrameSettersSendOpcodeAndParameter : Prop :=
  ∀ s : State, s.accepting →
    (∀ v, exec (.setContrast v) s = .next (afterCommand s [0x81, v]))
    ∧ (∀ mode, mode ≠ 3 → exec (.setAddrMode mode) s = .next (afterCommand s [0x20, trunc8 mode.toNat]))
    ∧ exec (.setAddrMode 3) s = .refused (.rejected .reservedOperand)
    ∧ (∀ ratio, exec (.setMuxRatio ratio) s = .next (afterCommand s [0xA8, ratio]))
    ∧ (∀ offset, exec (.setOffset offset) s = .next (afterCommand s [0xD3, offset]))
    ∧ (∀ seq remap, exec (.setComPins seq remap) s =
        .next (afterCommand s [0xDA, trunc8 ((seq.toNat <<< 4) ||| (remap.toNat <<< 5) ||| 0x02)]))
    ∧ (∀ divide freq, exec (.setClock divide freq) s =
        .next (afterCommand s [0xD5, trunc8 (divide.toNat ||| (freq.toNat <<< 4))]))
    ∧ (∀ phase1 phase2, exec (.setPrecharge phase1 phase2) s =
        .next (afterCommand s [0xD9, trunc8 (phase1.toNat ||| (phase2.toNat <<< 4))]))
    ∧ (∀ sel, exec (.setVcomh sel) s =
        .next (afterCommand s [0xDB, trunc8 ([0x00, 0x20, 0x30, 0x40].getD sel.toNat 0)]))
    ∧ (∀ enable, exec (.setChargePump enable) s =
        .next (afterCommand s [0x8D, trunc8 (0x10 ||| (enable.toNat <<< 2))]))

/-- The column start, low nibble first, and the two range setters (41_controller R84, R86, R87). -/
def Obligations.ColumnAndRangeSettersSendTheirBytes : Prop :=
  ∀ s : State, s.accepting →
    (∀ v, exec (.setColStart v) s =
      .next (afterCommand s [trunc8 (v.toNat &&& 0x0F), trunc8 (0x10 ||| (v.toNat >>> 4))]))
    ∧ (∀ start stop, exec (.setColRange start stop) s = .next (afterCommand s [0x21, start, stop]))
    ∧ (∀ start stop, exec (.setPageRange start stop) s = .next (afterCommand s [0x22, start, stop]))

/-- A setter is a fixed list of one to three WRCMDs that depends on its operands alone (30_encoding R62,
41_controller R80). -/
def Obligations.SettersAreWrcmdSequences : Prop :=
  ∀ i : Instr, isSetter i = true → i ≠ .setAddrMode 3 →
    ∃ bs : List Byte, 1 ≤ bs.length ∧ bs.length ≤ 3 ∧ ∀ s : State, s.accepting →
      exec i s = runAll (bs.map Instr.wrcmd) s ∧ exec i s = .next (afterCommand s bs)

/-- The `wire.*` rows send the bytes of their patterns, field by field (opcode_table.json; the reading of these rows as
instructions is the model's choice, log 5). -/
def Obligations.WireRowsSendTheirPatterns : Prop :=
  ∀ s : State, s.accepting →
    (∀ v, exec (.wireContrast v) s = .next (afterCommand s [0x81, v]))
    ∧ (∀ sel, exec (.wireDispMode sel) s = .next (afterCommand s [trunc8 (0xA4 + sel.toNat)]))
    ∧ (∀ o, exec (.wireDisplayOn o) s = .next (afterCommand s [trunc8 (0xAE + o.toNat)]))
    ∧ (∀ l h, exec (.wireColStart l h) s = .next (afterCommand s [trunc8 l.toNat, trunc8 (0x10 + h.toNat)]))
    ∧ (∀ m, exec (.wireAddrMode m) s = .next (afterCommand s [0x20, trunc8 m.toNat]))
    ∧ (∀ a b, exec (.wireColRange a b) s = .next (afterCommand s [0x21, a, b]))
    ∧ (∀ a b, exec (.wirePageRange a b) s = .next (afterCommand s [0x22, a, b]))
    ∧ (∀ p, exec (.wirePageStart p) s = .next (afterCommand s [trunc8 (0xB0 + p.toNat)]))
    ∧ (∀ l, exec (.wireStartLine l) s = .next (afterCommand s [trunc8 (0x40 + l.toNat)]))
    ∧ (∀ b, exec (.wireSegRemap b) s = .next (afterCommand s [trunc8 (0xA0 + b.toNat)]))
    ∧ (∀ r, exec (.wireMuxRatio r) s = .next (afterCommand s [0xA8, r]))
    ∧ (∀ b, exec (.wireComScan b) s = .next (afterCommand s [trunc8 (0xC0 + 8 * b.toNat)]))
    ∧ (∀ o, exec (.wireOffset o) s = .next (afterCommand s [0xD3, o]))
    ∧ (∀ r q, exec (.wireComPins r q) s =
        .next (afterCommand s [0xDA, trunc8 (32 * r.toNat + 16 * q.toNat + 2)]))
    ∧ (∀ f d, exec (.wireClock f d) s = .next (afterCommand s [0xD5, trunc8 (16 * f.toNat + d.toNat)]))
    ∧ (∀ q p, exec (.wirePrecharge q p) s = .next (afterCommand s [0xD9, trunc8 (16 * q.toNat + p.toNat)]))
    ∧ (∀ c, exec (.wireVcomh c) s = .next (afterCommand s [0xDB, trunc8 (16 * c.toNat)]))
    ∧ (∀ e, exec (.wireChargePump e) s = .next (afterCommand s [0x8D, trunc8 (0x10 + 4 * e.toNat)]))

/-- A setter with operands inside their fields does what its row on the wire does, in every state (30_encoding R54, R55;
log 5). -/
def Obligations.SettersEqualTheirWireRows : Prop :=
  ∀ s : State,
    (∀ v, exec (.setContrast v) s = exec (.wireContrast v) s)
    ∧ (∀ sel, exec (.setDispMode sel) s = exec (.wireDispMode sel) s)
    ∧ (∀ on, exec (.setDisplayOn on) s = exec (.wireDisplayOn on) s)
    ∧ (∀ v, exec (.setColStart v) s = exec (.wireColStart (v.extractLsb' 0 4) (v.extractLsb' 4 4)) s)
    ∧ (∀ mode, mode ≠ 3 → exec (.setAddrMode mode) s = exec (.wireAddrMode mode) s)
    ∧ (∀ a b, exec (.setColRange a b) s = exec (.wireColRange a b) s)
    ∧ (∀ a b, exec (.setPageRange a b) s = exec (.wirePageRange a b) s)
    ∧ (∀ p : BitVec 4, exec (.setPageStart (p.setWidth 8)) s = exec (.wirePageStart p) s)
    ∧ (∀ l : BitVec 6, exec (.setStartLine (l.setWidth 8)) s = exec (.wireStartLine l) s)
    ∧ (∀ b, exec (.setSegRemap b) s = exec (.wireSegRemap b) s)
    ∧ (∀ r, exec (.setMuxRatio r) s = exec (.wireMuxRatio r) s)
    ∧ (∀ b, exec (.setComScan b) s = exec (.wireComScan b) s)
    ∧ (∀ o, exec (.setOffset o) s = exec (.wireOffset o) s)
    ∧ (∀ seq remap, exec (.setComPins seq remap) s = exec (.wireComPins remap seq) s)
    ∧ (∀ d f : BitVec 4, exec (.setClock (d.setWidth 8) (f.setWidth 8)) s = exec (.wireClock f d) s)
    ∧ (∀ p q : BitVec 4, exec (.setPrecharge (p.setWidth 8) (q.setWidth 8)) s = exec (.wirePrecharge q p) s)
    ∧ (∀ sel : U2, ∃ c, vcomhLegal c = true ∧ exec (.setVcomh sel) s = exec (.wireVcomh c) s)
    ∧ (∀ e, exec (.setChargePump e) s = exec (.wireChargePump e) s)

/-- A wire row is the consecutive WRCMDs of its bytes (70_reset R162; log 5). -/
def Obligations.WireRowsAreWrcmdSequences : Prop :=
  ∀ (i : Instr) (s : State), s.accepting → i.wireBytes ≠ [] → exec i s = runAll (i.wireBytes.map Instr.wrcmd) s

/-! ### Drawing -/

/-- CLEAR and FILL set every byte of the buffer and change nothing else (42_pixel R101, R102). -/
def Obligations.ClearAndFillSetEveryByte : Prop :=
  ∀ s : State, s.accepting → s.fb.wf →
    (∀ b, ∃ t, exec (.fill b) s = .next t ∧ onlyFB s t
      ∧ ∀ a, t.readFB a = if a < s.inst.NB then b else s.readFB a)
    ∧ exec .clear s = exec (.fill 0x00) s
    ∧ (∃ t, exec .clear s = .next t ∧ onlyFB s t ∧ ∀ a < s.inst.NB, t.readFB a = 0x00)
    ∧ decodeItem (.request 0x40 []) = .ok .clear ∧ ∀ b, decodeItem (.request 0x41 [.u8 b]) = .ok (.fill b)

/-- SETPIXEL: an in-range pixel takes the colour, no other pixel and no other byte changes; out of range nothing changes at
all (42_pixel R103). -/
def Obligations.SetPixelChangesOnePixel : Prop :=
  ∀ (s : State) (x y : Int) (color : Bit), s.accepting → s.fb.wf →
    (¬ onBuffer s x y → exec (.setPixel x y color) s = .next s)
    ∧ (onBuffer s x y → ∃ t, exec (.setPixel x y color) s = .next t ∧ onlyFB s t
        ∧ pix t x y = (color == 1)
        ∧ (∀ px py, onBuffer s px py → (px, py) ≠ (x, y) → pix t px py = pix s px py)
        ∧ ∀ a, a ≠ byteOf s x y → t.readFB a = s.readFB a)
    ∧ decodeItem (.request 0x42 [.int x, .int y, .bit color]) = .ok (.setPixel x y color)

/-- Setting and then clearing a pixel leaves it clear and every other pixel as it was, and gives the prior state back
exactly when the pixel was clear before (42_pixel R103). -/
def Obligations.SetThenClearPixel : Prop :=
  ∀ (s : State) (x y : Int), s.accepting → s.fb.wf → onBuffer s x y →
    ∃ t u, exec (.setPixel x y 1) s = .next t ∧ exec (.setPixel x y 0) t = .next u
      ∧ pix u x y = false
      ∧ (∀ px py, onBuffer s px py → (px, py) ≠ (x, y) → pix u px py = pix s px py)
      ∧ (u = s ↔ pix s x y = false)

/-- DRAWRECT forces the in-range perimeter pixels of its box to the colour and leaves every other pixel, and every byte
without one of them, as it was (42_pixel R104, R106). -/
def Obligations.DrawRectForcesThePerimeter : Prop :=
  ∀ (s : State) (x y w h : Int) (color : Bit), s.accepting → s.fb.wf →
    decodeItem (.request 0x43 [.int x, .int y, .int w, .int h, .bit color]) = .ok (.drawRect x y w h color)
    ∧ ∃ t, exec (.drawRect x y w h color) s = .next t ∧ onlyFB s t
      ∧ (∀ i j, onBuffer s i j → pix t i j =
          if (x ≤ i ∧ i < x + w ∧ y ≤ j ∧ j < y + h) ∧ (i = x ∨ i = x + w - 1 ∨ j = y ∨ j = y + h - 1)
          then color == 1 else pix s i j)
      ∧ ∀ a, (∀ i j, onBuffer s i j → x ≤ i → i < x + w → y ≤ j → j < y + h →
          (i = x ∨ i = x + w - 1 ∨ j = y ∨ j = y + h - 1) → a ≠ byteOf s i j) → t.readFB a = s.readFB a

/-- FILLRECT forces the in-range pixels of its box to the colour and leaves every other pixel, and every byte without one
of them, as it was (42_pixel R105, R106). -/
def Obligations.FillRectForcesTheBox : Prop :=
  ∀ (s : State) (x y w h : Int) (color : Bit), s.accepting → s.fb.wf →
    decodeItem (.request 0x44 [.int x, .int y, .int w, .int h, .bit color]) = .ok (.fillRect x y w h color)
    ∧ ∃ t, exec (.fillRect x y w h color) s = .next t ∧ onlyFB s t
      ∧ (∀ i j, onBuffer s i j → pix t i j =
          if x ≤ i ∧ i < x + w ∧ y ≤ j ∧ j < y + h then color == 1 else pix s i j)
      ∧ ∀ a, (∀ i j, onBuffer s i j → x ≤ i → i < x + w → y ≤ j → j < y + h → a ≠ byteOf s i j) →
          t.readFB a = s.readFB a

/-- The whole buffer as a box: FILLRECT 0, 0, W, H equals FILL 0xFF or CLEAR, as whole states (42_pixel R105). -/
def Obligations.FillRectOfTheWholeBuffer : Prop :=
  ∀ s : State, s.accepting → s.fb.wf → s.fbInside →
    exec (.fillRect 0 0 s.inst.W s.inst.H 1) s = exec (.fill 0xFF) s
      ∧ exec (.fillRect 0 0 s.inst.W s.inst.H 0) s = exec .clear s

/-- DRAWCHAR: glyph row `k` lands on buffer row `y + k`, merged by OR, for `y` in the buffer; nothing is drawn for another
`y`. The five bytes are the table's for a code 32..127 and some bytes otherwise. No byte changes but those of the visible
columns in the page of `y` and the next (43_glyph R110). -/
def Obligations.DrawCharMergesTheGlyph : Prop :=
  ∀ (s : State) (x y : Int) (ch : Byte), s.accepting → s.fb.wf →
    ∃ (t : State) (g : Nat → Byte), exec (.drawChar x y ch) s = .next t ∧ onlyFBFree s t
      ∧ (32 ≤ ch.toNat → ch.toNat ≤ 127 →
          t.free = s.free ∧ ∀ col < 5, some (g col) = s.inst.glyph[(ch.toNat - 32) * 5 + col]?)
      ∧ (∀ px py, onBuffer s px py → pix t px py =
          (pix s px py || (decide (0 ≤ y ∧ y < s.inst.H ∧ x ≤ px ∧ px < x + 5 ∧ y ≤ py ∧ py < y + 8)
            && (g (px - x).toNat).getLsbD (py - y).toNat)))
      ∧ ∀ a, (∀ col : Nat, col < 5 → onBuffer s (x + col) y →
            a ≠ y.toNat / 8 * s.inst.W + (x + col).toNat
            ∧ (y.toNat / 8 + 1 < s.inst.NP → a ≠ (y.toNat / 8 + 1) * s.inst.W + (x + col).toNat)) →
          t.readFB a = s.readFB a

/-- A glyph above, below, left or right of the buffer changes no byte (43_glyph R110; 60_exceptions R131). That a character
outside 32..127 completes, and the counter it moves, is the model's choice (log 4). -/
def Obligations.GlyphOutsideDrawsNothing : Prop :=
  ∀ (s : State) (x y : Int) (ch : Byte), s.accepting →
    (y < 0 ∨ (s.inst.H : Int) ≤ y ∨ (s.inst.W : Int) ≤ x ∨ x ≤ -5) →
      ∃ t, exec (.drawChar x y ch) s = .next t ∧ { t with free := s.free } = s

/-- DRAWSTRING is one DRAWCHAR per character at `x + 6k`, and it completes (43_glyph R111). That it completes for codes
outside 32..127 is the model's choice (log 4), and so is what it does for a text with a 0 in it, which the decoder never
answers (log 6). -/
def Obligations.DrawStringIsDrawChars : Prop :=
  ∀ (s : State) (x y : Int) (t : List Byte), s.accepting →
    exec (.drawString x y t) s = runAll (t.mapIdx fun k ch => Instr.drawChar (x + 6 * (k : Int)) y ch) s
      ∧ (∃ u, exec (.drawString x y t) s = .next u)
      ∧ ((0 : Byte) ∉ t → decodeItem (.request 0x46 [.int x, .int y, .text t]) = .ok (.drawString x y t))

/-- DRAWSTRING of `n` characters, and DRAWNUMBER with its digits, change no byte but those of the visible glyph columns in
the page of `y` and the next: no spacing column, and nothing at all for a `y` outside the buffer (43_glyph R110, R111, R113,
R114). The counter of arbitrary bytes is the model's (log 4). -/
def Obligations.TextChangesOnlyItsColumns : Prop :=
  ∀ (s u : State) (x y : Int) (i : Instr) (n : Nat), s.fb.wf →
    ((∃ t, i = .drawString x y t ∧ n = t.length)
      ∨ ∃ v z, i = .drawNumber x y v z ∧ n = (shownDigits v.toNat z).length) →
    exec i s = .next u → onlyFBFree s u
      ∧ ∀ a, (∀ k col : Nat, k < n → col < 5 → onBuffer s (x + 6 * k + col) y →
            a ≠ y.toNat / 8 * s.inst.W + (x + 6 * k + col).toNat
            ∧ (y.toNat / 8 + 1 < s.inst.NP → a ≠ (y.toNat / 8 + 1) * s.inst.W + (x + 6 * k + col).toNat)) →
          u.readFB a = s.readFB a

/-- DRAWBITMAP sets exactly the in-range pixels whose source bit is 1 and clears none; a short source is refused; an empty
box changes nothing (43_glyph R112). -/
def Obligations.DrawBitmapSetsItsOnPixels : Prop :=
  ∀ (s : State) (x y w h : Int) (src : List Byte), s.accepting → s.fb.wf →
    (w ≤ 0 ∨ h ≤ 0 → exec (.drawBitmap x y w h src) s = .next s)
    ∧ (0 < w → 0 < h → src.length < (h.toNat + 7) / 8 * w.toNat →
        exec (.drawBitmap x y w h src) s = .refused (.rejected .shortSource))
    ∧ (0 < w → 0 < h → (h.toNat + 7) / 8 * w.toNat ≤ src.length →
        decodeItem (.request 0x47 [.int x, .int y, .int w, .int h, .bytes src]) = .ok (.drawBitmap x y w h src)
        ∧ ∃ t, exec (.drawBitmap x y w h src) s = .next t ∧ onlyFB s t
          ∧ (∀ i j, onBuffer s i j → pix t i j =
              (pix s i j || (decide (x ≤ i ∧ i < x + w ∧ y ≤ j ∧ j < y + h)
                && (src.getD ((j - y).toNat / 8 * w.toNat + (i - x).toNat) 0).getLsbD (7 - (j - y).toNat % 8))))
          ∧ ∀ a, (∀ i j, onBuffer s i j → x ≤ i → i < x + w → y ≤ j → j < y + h → a ≠ byteOf s i j) →
              t.readFB a = s.readFB a)

/-- A source byte drawn on a page is ORed in bit-reversed (20_memory R40). -/
def Obligations.BitmapByteIsReversedInTheBuffer : Prop :=
  ∀ (s : State) (page x : Nat) (w : Int) (src : List Byte), s.accepting → s.fb.wf → page < s.inst.NP →
    0 < w → w.toNat ≤ src.length →
    ∃ t, exec (.drawBitmap (x : Int) (8 * (page : Int)) w 8 src) s = .next t
      ∧ ∀ i : Nat, i < w.toNat → x + i < s.inst.W →
        t.readFB (page * s.inst.W + (x + i)) = s.readFB (page * s.inst.W + (x + i)) ||| (src.getD i 0).reverse

/-- DRAWNUMBER draws the decimal digits at a pitch of 6, code 48 + d each, without leading zeros unless zeroFill, the units
digit always (43_glyph R113, R114). -/
def Obligations.DrawNumberDrawsItsDigits : Prop :=
  ∀ (s : State) (x y : Int) (value : U16) (zeroFill : Bit), s.accepting →
    exec (.drawNumber x y value zeroFill) s =
        runAll ((shownDigits value.toNat zeroFill).mapIdx fun k d =>
          Instr.drawChar (x + 6 * (k : Int)) y (trunc8 (48 + d))) s
      ∧ (∃ u, exec (.drawNumber x y value zeroFill) s = .next u)
      ∧ decodeItem (.request 0x48 [.int x, .int y, .u16 value, .bit zeroFill]) = .ok (.drawNumber x y value zeroFill)

/-- The digits drawn are decimal digits that make up the value, at most five, exactly five with zeroFill, and the first of
several is not 0 without it (43_glyph R114). -/
def Obligations.DigitsMakeUpTheValue : Prop :=
  ∀ v : Nat, v < 65536 →
    (∀ z, (digits v z).foldl (fun acc d => 10 * acc + d) 0 = v ∧ (∀ d ∈ digits v z, d < 10))
      ∧ (digits v true).length = 5
      ∧ 1 ≤ (digits v false).length ∧ (digits v false).length ≤ 5
      ∧ (2 ≤ (digits v false).length → (digits v false).head? ≠ some 0)

/-- DRAWCHAR, DRAWSTRING, DRAWBITMAP and DRAWNUMBER can set pixels and never clear one (20_memory R36, 43_glyph R110 to
R113). -/
def Obligations.OverlayNeverClears : Prop :=
  ∀ (i : Instr) (s t : State), s.fb.wf →
    ((∃ x y ch, i = .drawChar x y ch) ∨ (∃ x y u, i = .drawString x y u) ∨ (∃ x y w h src, i = .drawBitmap x y w h src)
      ∨ (∃ x y v z, i = .drawNumber x y v z)) →
    exec i s = .next t → ∀ px py, onBuffer s px py → pix s px py = true → pix t px py = true

/-! ### Flush -/

/-- FLUSH sends, per page, the page start, the column start 0 and the W bytes of the page, and changes nothing but the
serial pins and the trace (44_flush R120). -/
def Obligations.FlushSendsTheWholeBuffer : Prop :=
  decodeItem (.request 0x49 []) = .ok .flush
    ∧ ∀ s : State, s.accepting → exec .flush s = .next (afterFrames s (flushSpec s))

/-- The counts of a flush, the n-th Data frame carrying FB[n], and the page-start frames in their places, as a receiver
reads them (44_flush R121). -/
def Obligations.FlushCounts : Prop :=
  ∀ s : State, s.accepting →
    ∃ t evs, exec .flush s = .next t ∧ t.trace = s.trace ++ evs
      ∧ evs.length = 27 * (s.inst.NP * (3 + s.inst.W))
      ∧ (∀ n, Event.delay n ∉ evs)
      ∧ (frames evs).length = s.inst.NP * (3 + s.inst.W)
      ∧ ((frames evs).filter (·.mode = .command)).length = 3 * s.inst.NP
      ∧ ((frames evs).filter (·.mode = .data)).map Frame.byte = (List.range s.inst.NB).map s.readFB
      ∧ ∀ p < s.inst.NP, (frames evs)[p * (3 + s.inst.W)]? = some ⟨.command, trunc8 (0xB0 ||| p)⟩

/-- FLUSH clears nothing, and a second one sends the same events again (44_flush R120). -/
def Obligations.FlushTwiceSendsTheSame : Prop :=
  ∀ s : State, s.accepting →
    ∃ t u evs, exec .flush s = .next t ∧ exec .flush t = .next u
      ∧ t.trace = s.trace ++ evs ∧ u.trace = t.trace ++ evs ∧ t.fb = s.fb ∧ u.fb = s.fb ∧ u.pins = t.pins

/-! ### Frames: what an instruction leaves unchanged -/

/-- A drawing operation writes no pin and no event and changes nothing but FB (and the counter of log 4)
(42_pixel R100). -/
def Obligations.DrawingTouchesOnlyFB : Prop :=
  ∀ (i : Instr) (s t : State), isDrawing i = true → exec i s = .next t → onlyFBFree s t

/-- Every other operation leaves FB, byte by byte, the RES pin, the phase, the instance and the port as they were
(40_serial R70, 41_controller R80, 44_flush R120). -/
def Obligations.SerialTouchesOnlySerialPins : Prop :=
  ∀ (i : Instr) (s t : State), isDrawing i = false → exec i s = .next t →
    (∀ a, t.readFB a = s.readFB a) ∧ t.fb = s.fb ∧ t.pins.res = s.pins.res
      ∧ { t with pins := s.pins, trace := s.trace } = s

/-- No operation forms an index outside FB: a byte past the buffer reads as before after every instruction
(20_memory R31, 00_scope R9). -/
def Obligations.NoByteOutsideTheBufferChanges : Prop :=
  ∀ (i : Instr) (s t : State), s.fb.wf → exec i s = .next t → ∀ a, s.inst.NB ≤ a → t.readFB a = s.readFB a

/-- The trace only grows, by 27 events a frame, and the number of frames is a function of the mnemonic, W and H alone
(43_glyph R116, 10_state R19). -/
def Obligations.TraceGrowsByTheFrameCount : Prop :=
  ∀ (i : Instr) (s t : State), exec i s = .next t →
    ∃ evs, t.trace = s.trace ++ evs ∧ evs.length = 27 * frameCount s.inst i

/-- What an operation other than FLUSH sends depends on nothing but its operands, in any two states of any two instances;
what it draws depends on nothing but its operands, the instance (its glyphs among it), FB, and the model's counter
`free` of arbitrary bytes (log 4) (41_controller R80, 42_pixel R100, 20_memory R45). -/
def Obligations.SendsDependOnOperandsAlone : Prop :=
  ∀ (i : Instr) (s s' t t' : State), i ≠ .flush → exec i s = .next t → exec i s' = .next t' →
    (∃ evs, t.trace = s.trace ++ evs ∧ t'.trace = s'.trace ++ evs)
      ∧ (s.inst = s'.inst → s.fb = s'.fb → s.free = s'.free → t.fb = t'.fb)

/-! ### Whole-machine rules -/

/-- Once Ready, always Ready; and no step changes the instance (10_state R12, R21). -/
def Obligations.ReadyForEver : Prop :=
  ∀ s t : State, step s = .next t → t.inst = s.inst ∧ t.phase = .ready

/-- After the reset sequence no step writes RES or asks for a delay (70_reset R160, 60_exceptions R138). -/
def Obligations.ResAndDelayOnlyInTheResetSequence : Prop :=
  ∀ s t : State, s.phase = .ready → step s = .next t →
    t.pins.res = s.pins.res
      ∧ ∃ evs, t.trace = s.trace ++ evs ∧ (∀ v, Event.pin .res v ∉ evs) ∧ ∀ n, Event.delay n ∉ evs

/-- The reset pulse: RES high for at least 10 ms, low for at least 60 ms, high, once, and never again whatever is run
(70_reset R160). -/
def Obligations.ResetPulseOnceWithItsHolds : Prop :=
  ∀ s : State, s.Inv → instLegal s.inst → s.phase = .ready →
    resAndDelays s.trace =
        [.pin .res true, .delay s.inst.tPre, .pin .res false, .delay s.inst.tLow, .pin .res true]
      ∧ 10 ≤ s.inst.tPre ∧ 60 ≤ s.inst.tLow
      ∧ ∀ t, step s = .next t → resAndDelays t.trace = resAndDelays s.trace

/-- The invariant holds at block reset (10_state R13, R19, R23). Its clause that the field `fb` is empty in PowerOn is the
model's choice (log 2): the spec leaves FB unspecified there, and `readFB` answers the free value whatever the field
lists. -/
def Obligations.InvariantAtReset : Prop := State.reset.Inv

/-- Every step keeps the invariant: FB in canonical form and in bounds, the latches as the trace says, the trace the reset
pulse, the bring-up and then whole frames (10_state R13, R19; 20_memory R31; 40_serial R73, R75). -/
def Obligations.StepKeepsTheInvariant : Prop :=
  ∀ s t : State, s.Inv → step s = .next t → t.Inv

/-- Every trace of a Ready state that meets the invariant reads back as frames: the reset pulse is all that lies outside
them, the first 26 are the bring-up's Command frames, and the frames give the trace back (40_serial R73). -/
def Obligations.TraceReadsBackAsFrames : Prop :=
  ∀ s : State, s.Inv → s.phase = .ready →
    outsideFrames s.trace = pulse s.inst
      ∧ s.trace = pulse s.inst ++ (frames s.trace).flatMap (fun f => frame27 f.mode.level f.byte)
      ∧ (frames s.trace).take 26 = bringupBytes.map (Frame.mk .command)

/-- A receiver sees the frames of a step after those it saw before: reading the longer trace gives the old frames followed
by the frames of the new events (40_serial R73). -/
def Obligations.ReceiverSeesNewFramesAppended : Prop :=
  ∀ s t : State, s.Inv → s.phase = .ready → step s = .next t →
    ∃ evs, t.trace = s.trace ++ evs ∧ frames t.trace = frames s.trace ++ frames evs ∧ outsideFrames evs = []

/-- No frame is sent while the controller is in reset: before the last write of RES the trace holds no frame, and that
write releases it (70_reset R161). -/
def Obligations.NoFrameBeforeResetIsReleased : Prop :=
  ∀ (s : State) (pre post : List Event) (v : Bool), s.Inv → s.trace = pre ++ Event.pin .res v :: post →
    (∀ w, Event.pin .res w ∉ post) → v = true ∧ frames pre = [] ∧ (Event.delay s.inst.tLow) ∈ pre
end

