-- ==== Sys2Proof/Laws/State.lean ====
section
/-! SUPPORT. One lemma per field per update of the state, so that no later proof unfolds a record update. -/

namespace Sys2Proof.Machine

variable (es : List Event) (fs : List Frame) (bs : List Byte) (f : Memory → Memory) (s : State)

@[simp] theorem emit_inst : (emit es s).inst = s.inst := rfl
@[simp] theorem emit_phase : (emit es s).phase = s.phase := rfl
@[simp] theorem emit_pins : (emit es s).pins = es.foldl Pins.apply s.pins := rfl
@[simp] theorem emit_fb : (emit es s).fb = s.fb := rfl
@[simp] theorem emit_trace : (emit es s).trace = s.trace ++ es := rfl
@[simp] theorem emit_port : (emit es s).port = s.port := rfl
@[simp] theorem emit_free : (emit es s).free = s.free := rfl

@[simp] theorem sendFrames_inst : (sendFrames fs s).inst = s.inst := rfl
@[simp] theorem sendFrames_phase : (sendFrames fs s).phase = s.phase := rfl
@[simp] theorem sendFrames_pins :
    (sendFrames fs s).pins = (fs.flatMap frameEvents).foldl Pins.apply s.pins := rfl
@[simp] theorem sendFrames_fb : (sendFrames fs s).fb = s.fb := rfl
@[simp] theorem sendFrames_trace : (sendFrames fs s).trace = s.trace ++ fs.flatMap frameEvents := rfl
@[simp] theorem sendFrames_port : (sendFrames fs s).port = s.port := rfl
@[simp] theorem sendFrames_free : (sendFrames fs s).free = s.free := rfl

@[simp] theorem draw_inst : (draw f s).inst = s.inst := rfl
@[simp] theorem draw_phase : (draw f s).phase = s.phase := rfl
@[simp] theorem draw_pins : (draw f s).pins = s.pins := rfl
@[simp] theorem draw_fb : (draw f s).fb = f s.fb := rfl
@[simp] theorem draw_trace : (draw f s).trace = s.trace := rfl
@[simp] theorem draw_port : (draw f s).port = s.port := rfl
@[simp] theorem draw_free : (draw f s).free = s.free := rfl

section Glyph
variable (x y : Int) (ch : Byte)

@[simp] theorem drawGlyph_inst : (drawGlyph x y ch s).inst = s.inst := rfl
@[simp] theorem drawGlyph_phase : (drawGlyph x y ch s).phase = s.phase := rfl
@[simp] theorem drawGlyph_pins : (drawGlyph x y ch s).pins = s.pins := rfl
@[simp] theorem drawGlyph_fb :
    (drawGlyph x y ch s).fb = mergeGlyph s.inst x y (glyphByte s.inst s.free ch) s.fb := rfl
@[simp] theorem drawGlyph_trace : (drawGlyph x y ch s).trace = s.trace := rfl
@[simp] theorem drawGlyph_port : (drawGlyph x y ch s).port = s.port := rfl
@[simp] theorem drawGlyph_free : (drawGlyph x y ch s).free = if inTable ch then s.free else s.free + 5 := rfl

end Glyph

section Text
variable (y : Int)

@[simp] theorem drawText_inst (t : List Byte) : ∀ (x : Int) (s : State), (drawText x y t s).inst = s.inst := by
  induction t with
  | nil => intros; rfl
  | cons ch t ih => intro x s; simp [drawText, ih]

@[simp] theorem drawText_phase (t : List Byte) : ∀ (x : Int) (s : State), (drawText x y t s).phase = s.phase := by
  induction t with
  | nil => intros; rfl
  | cons ch t ih => intro x s; simp [drawText, ih]

@[simp] theorem drawText_pins (t : List Byte) : ∀ (x : Int) (s : State), (drawText x y t s).pins = s.pins := by
  induction t with
  | nil => intros; rfl
  | cons ch t ih => intro x s; simp [drawText, ih]

@[simp] theorem drawText_trace (t : List Byte) : ∀ (x : Int) (s : State), (drawText x y t s).trace = s.trace := by
  induction t with
  | nil => intros; rfl
  | cons ch t ih => intro x s; simp [drawText, ih]

@[simp] theorem drawText_port (t : List Byte) : ∀ (x : Int) (s : State), (drawText x y t s).port = s.port := by
  induction t with
  | nil => intros; rfl
  | cons ch t ih => intro x s; simp [drawText, ih]

end Text

@[simp] theorem resetSequence_inst : (resetSequence s).inst = s.inst := by simp only [resetSequence, sendCommand, sendFrames_inst, sendFrames_port, sendFrames_free, emit_inst, emit_port, emit_free]
@[simp] theorem resetSequence_phase : (resetSequence s).phase = .ready := by simp only [resetSequence, sendCommand, sendFrames_inst, sendFrames_port, sendFrames_free, emit_inst, emit_port, emit_free]
@[simp] theorem resetSequence_fb : (resetSequence s).fb = fillBytes s.inst 0x00 s.fb := by simp only [resetSequence, sendCommand, sendFrames_inst, sendFrames_port, sendFrames_free, emit_inst, emit_port, emit_free]
@[simp] theorem resetSequence_port : (resetSequence s).port = s.port := by simp only [resetSequence, sendCommand, sendFrames_inst, sendFrames_port, sendFrames_free, emit_inst, emit_port, emit_free]
@[simp] theorem resetSequence_free : (resetSequence s).free = s.free := by simp only [resetSequence, sendCommand, sendFrames_inst, sendFrames_port, sendFrames_free, emit_inst, emit_port, emit_free]
theorem resetSequence_trace :
    (resetSequence s).trace = s.trace ++ (pulseEvents s.inst ++ bringupFrames.flatMap frameEvents) := by
  simp [resetSequence, sendCommand, bringupFrames]
theorem resetSequence_pins : (resetSequence s).pins =
    (pulseEvents s.inst ++ bringupFrames.flatMap frameEvents).foldl Pins.apply s.pins := by
  simp [resetSequence, sendCommand, bringupFrames, emit]

/-- What `accept` answers is the next state exactly when the block takes a request. -/
theorem requestRefusal_eq_none : requestRefusal s = none ↔ s.accepting := by
  unfold requestRefusal
  cases h : instanceRefusal s.inst with
  | none => cases hp : s.phase <;> simp [State.accepting, instLegal, h, hp]
  | some r => simp [State.accepting, instLegal, h]

theorem accept_accepting {s t : State} (h : s.accepting) : accept s t = .next t := by
  simp [accept, (requestRefusal_eq_none s).2 h]

theorem accept_next {s t u : State} (h : accept s t = .next u) : s.accepting ∧ u = t := by
  unfold accept at h
  split at h
  · cases h
  · exact ⟨(requestRefusal_eq_none s).1 ‹_›, (Host.Outcome.next.inj h).symm⟩

theorem acceptUnless_accepting {s t : State} {bad : Bool} {r : Reject} (h : s.accepting) :
    acceptUnless s bad r t = if bad then .refused (.rejected r) else .next t := by
  simp [acceptUnless, (requestRefusal_eq_none s).2 h]

theorem acceptUnless_next {s t u : State} {bad : Bool} {r : Reject} (h : acceptUnless s bad r t = .next u) :
    s.accepting ∧ bad = false ∧ u = t := by
  unfold acceptUnless at h
  split at h
  · cases h
  · cases bad
    · exact ⟨(requestRefusal_eq_none s).1 ‹_›, rfl, (Host.Outcome.next.inj h).symm⟩
    · cases h

/-- What a legal instance gives (00_scope R7, 20_memory R41). -/
theorem instLegal.facts {p : Params} (h : instLegal p) :
    0 < p.W ∧ p.W % 8 = 0 ∧ 0 < p.H ∧ p.H = 8 * p.NP ∧ p.NP ≤ 16 ∧ 10 ≤ p.tPre ∧ 60 ≤ p.tLow ∧ p.glyph.length = 480 := by
  unfold instLegal instanceRefusal at h
  split at h
  · cases h
  split at h
  · cases h
  split at h
  · cases h
  split at h
  · cases h
  have hn : p.NP = p.H / 8 := rfl
  refine ⟨?_, ?_, ?_, ?_, ?_, ?_, ?_, ?_⟩ <;> omega

end Sys2Proof.Machine
end

