-- ==== Sys2Proof/Laws/Frames.lean ====
section
/-! SUPPORT. Frames on the wire: what one does to the pins, and reading a trace back (40_serial R70, R73). -/

namespace Sys2Proof.Machine

theorem frameEvents_length (f : Frame) : (frameEvents f).length = 27 := rfl

theorem frames_events_length (fs : List Frame) : (fs.flatMap frameEvents).length = 27 * fs.length := by
  induction fs with
  | nil => rfl
  | cons f fs ih => simp [ih, frameEvents_length]; omega

/-- The latches after a frame (40_serial R70). -/
theorem apply_frame (f : Frame) (ps : Pins) : (frameEvents f).foldl Pins.apply ps =
    { ps with cs := .level true, dc := .level f.mode.level, clk := .level false, dat := .level (f.byte.getLsbD 0) } := rfl

/-- No frame drives RES (40_serial R70). -/
theorem apply_frames_res (fs : List Frame) (ps : Pins) :
    ((fs.flatMap frameEvents).foldl Pins.apply ps).res = ps.res := by
  induction fs generalizing ps with
  | nil => rfl
  | cons f fs ih => rw [List.flatMap_cons, List.foldl_append, ih, apply_frame]

/-- The latches after frames: those of the last one (40_serial R70). -/
theorem apply_frames_last (fs : List Frame) (f : Frame) (ps : Pins) :
    ((fs ++ [f]).flatMap frameEvents).foldl Pins.apply ps =
      ⟨.level true, .level f.mode.level, ps.res, .level false, .level (f.byte.getLsbD 0)⟩ := by
  rw [List.flatMap_append, List.foldl_append]
  simp only [List.flatMap_cons, List.flatMap_nil, List.append_nil, apply_frame]
  rw [apply_frames_res]

/-- Eight bits read most significant first give the byte back. -/
theorem bits_rebuild : ∀ b : Byte,
    [7, 6, 5, 4, 3, 2, 1, 0].foldl (fun (acc : Byte) i => (acc <<< 1) ||| (BitVec.ofBool (b.getLsbD i)).setWidth 8) 0 = b := by
  decide

/-- A frame reads back as itself (40_serial R73). -/
theorem readFrame_frameEvents (f : Frame) (es : List Event) : readFrame (frameEvents f ++ es) = some (f, es) := by
  obtain ⟨m, b⟩ := f
  have hb := bits_rebuild b
  simp only [List.foldl_cons, List.foldl_nil] at hb
  cases m <;> simp only [frameEvents, bitEvents, Mode.level, List.flatMap_cons, List.flatMap_nil, List.cons_append,
    List.nil_append, List.append_nil, readFrame, readBits, hb] <;> rfl

theorem cutFrames_frames (fs : List Frame) : ∀ fuel, (fs.flatMap frameEvents).length ≤ fuel →
    cutFrames fuel (fs.flatMap frameEvents) = (fs, []) := by
  induction fs with
  | nil => intro fuel _; cases fuel <;> rfl
  | cons f fs ih =>
    intro fuel hf
    cases fuel with
    | zero => simp [frameEvents_length] at hf
    | succ fuel =>
      have hr := readFrame_frameEvents f (fs.flatMap frameEvents)
      rw [List.flatMap_cons]
      have hcons : frameEvents f = .pin .cs false :: (frameEvents f).tail := rfl
      rw [hcons, List.cons_append] at hr ⊢
      simp only [cutFrames, hr]
      have hlen : (fs.flatMap frameEvents).length ≤ fuel := by
        rw [List.flatMap_cons, List.length_append, frameEvents_length] at hf
        omega
      rw [ih fuel hlen]

/-- The trace of a run from block reset cuts into its frames, and outside them lies the reset pulse alone
(40_serial R73, 70_reset R160). -/
theorem cutFrames_trace (p : Params) (fs : List Frame) : ∀ fuel,
    (pulseEvents p ++ fs.flatMap frameEvents).length ≤ fuel →
    cutFrames fuel (pulseEvents p ++ fs.flatMap frameEvents) = (fs, pulseEvents p) := by
  intro fuel hf
  have h7 : 7 ≤ fuel := by simp [pulseEvents] at hf; omega
  obtain ⟨k, rfl⟩ := Nat.exists_eq_add_of_le' h7
  have hlen : (fs.flatMap frameEvents).length ≤ k := by
    simp only [pulseEvents, List.length_append, List.length_cons, List.length_nil] at hf
    omega
  simp only [pulseEvents, List.cons_append, List.nil_append, cutFrames, readFrame]
  rw [cutFrames_frames fs k hlen]

/-- Frames read back as themselves, with nothing outside them (40_serial R73). -/
theorem frames_frameEvents (fs : List Frame) : frames (fs.flatMap frameEvents) = fs := by
  unfold frames; rw [cutFrames_frames fs _ (Nat.le_refl _)]

theorem outsideFrames_frameEvents (fs : List Frame) : outsideFrames (fs.flatMap frameEvents) = [] := by
  unfold outsideFrames; rw [cutFrames_frames fs _ (Nat.le_refl _)]

/-- No frame holds a write of RES or a delay (40_serial R70). -/
theorem res_not_mem_frames (fs : List Frame) (v : Bool) : Event.pin .res v ∉ fs.flatMap frameEvents := by
  simp only [List.mem_flatMap, not_exists, not_and]
  intro f _ h
  simp [frameEvents, bitEvents] at h

theorem delay_not_mem_frames (fs : List Frame) (n : Nat) : Event.delay n ∉ fs.flatMap frameEvents := by
  simp only [List.mem_flatMap, not_exists, not_and]
  intro f _ h
  simp [frameEvents, bitEvents] at h

/-- Frames sent one after another. -/
theorem sendFrames_cons (f : Frame) (fs : List Frame) (s : State) :
    sendFrames (f :: fs) s = sendFrames fs (sendFrames [f] s) := by
  simp [sendFrames, emit]

/-- How many frames a page and a flush send (44_flush R121). -/
theorem pageFrames_length (p : Params) (fb : Memory) (page : Nat) : (pageFrames p fb page).length = 3 + p.W := by
  simp [pageFrames, commandFrames, pageStartBytes, colStartBytes]
  omega

theorem flushFrames_length (p : Params) (fb : Memory) : (flushFrames p fb).length = p.NP * (3 + p.W) := by
  simp [flushFrames, List.length_flatMap, pageFrames_length]

end Sys2Proof.Machine
end

