-- ==== Sys2Proof/Laws/Memory.lean ====
section
/-! SUPPORT. The laws of the buffer's bytes: reading after a write, the canonical form, and the bounds. -/

namespace Sys2Proof.Machine

theorem Memory.wf_nil : Memory.wf [] := by simp [Memory.wf]

theorem Memory.wf_cons {a : Nat} {v : Byte} {m : Memory} :
    Memory.wf ((a, v) :: m) ↔ (∀ c ∈ m, a < c.1) ∧ v ≠ Memory.unlisted ∧ Memory.wf m := by
  simp only [Memory.wf, List.pairwise_cons, List.forall_mem_cons]
  tauto

/-- An index below every listed one reads as unlisted. -/
theorem Memory.read_below {m : Memory} {i : Nat} (h : ∀ c ∈ m, i < c.1) : m.read i = Memory.unlisted := by
  induction m with
  | nil => rfl
  | cons c m ih =>
    have h1 : i < c.1 := h c (by simp)
    have h2 := ih fun d hd => h d (by simp [hd])
    simp [Memory.read, h2]
    omega

theorem Memory.read_entry (i j : Nat) (v : Byte) :
    (Memory.entry i v).read j = if i = j then v else Memory.unlisted := by
  unfold Memory.entry
  by_cases hv : v = Memory.unlisted <;> simp [hv, Memory.read]

theorem Memory.read_entry_append {i : Nat} {v : Byte} {m : Memory} (h : m.read i = Memory.unlisted) (j : Nat) :
    (Memory.entry i v ++ m).read j = if i = j then v else m.read j := by
  unfold Memory.entry
  by_cases hv : v = Memory.unlisted
  · by_cases hij : i = j
    · subst hij; simp [hv, h]
    · simp [hv, hij]
  · simp [hv, Memory.read]

/-- Reading after a write (20_memory R43). -/
theorem Memory.read_write {m : Memory} (h : m.wf) (i j : Nat) (v : Byte) :
    (m.write i v).read j = if i = j then v else m.read j := by
  induction m with
  | nil => simpa [Memory.write, Memory.read] using Memory.read_entry i j v
  | cons c m ih =>
    obtain ⟨a, b⟩ := c
    obtain ⟨hlt, hb, hm⟩ := Memory.wf_cons.1 h
    unfold Memory.write
    split
    · rename_i hia
      refine Memory.read_entry_append (Memory.read_below ?_) j
      intro c hc
      rcases List.mem_cons.1 hc with rfl | hc
      · exact hia
      · exact Nat.lt_trans hia (hlt c hc)
    · split
      · rename_i hia
        subst hia
        rw [Memory.read_entry_append (Memory.read_below hlt)]
        by_cases hij : i = j <;> simp [hij, Memory.read]
      · by_cases haj : a = j
        · subst haj
          have : i ≠ a := by omega
          simp [Memory.read, this]
        · simp [Memory.read, haj, ih hm]

theorem Memory.read_write_same {m : Memory} (h : m.wf) (i : Nat) (v : Byte) : (m.write i v).read i = v := by
  simp [Memory.read_write h]

theorem Memory.mem_entry {i : Nat} {v : Byte} {c : Host.Cell} (h : c ∈ Memory.entry i v) :
    c = (i, v) ∧ v ≠ Memory.unlisted := by
  unfold Memory.entry at h
  split at h
  · simp at h
  · simp at h; exact ⟨h, ‹_›⟩

/-- Where the entries of a written buffer come from. -/
theorem Memory.mem_write {m : Memory} {i : Nat} {v : Byte} {c : Host.Cell} (h : c ∈ m.write i v) :
    (c = (i, v) ∧ v ≠ Memory.unlisted) ∨ c ∈ m := by
  induction m with
  | nil => exact .inl (Memory.mem_entry h)
  | cons d m ih =>
    obtain ⟨a, b⟩ := d
    unfold Memory.write at h
    split at h
    · rcases List.mem_append.1 h with h | h
      · exact .inl (Memory.mem_entry h)
      · exact .inr h
    · split at h
      · rcases List.mem_append.1 h with h | h
        · exact .inl (Memory.mem_entry h)
        · exact .inr (by simp [h])
      · rcases List.mem_cons.1 h with h | h
        · exact .inr (by simp [h])
        · rcases ih h with h | h
          · exact .inl h
          · exact .inr (by simp [h])

theorem Memory.wf_entry_append {i : Nat} {v : Byte} {m : Memory} (h : m.wf) (hi : ∀ c ∈ m, i < c.1) :
    Memory.wf (Memory.entry i v ++ m) := by
  unfold Memory.entry
  split
  · simpa using h
  · exact Memory.wf_cons.2 ⟨hi, ‹_›, h⟩

/-- A write keeps the canonical form. -/
theorem Memory.wf_write {m : Memory} (h : m.wf) (i : Nat) (v : Byte) : Memory.wf (m.write i v) := by
  induction m with
  | nil => simpa [Memory.write] using Memory.wf_entry_append (i := i) (v := v) h (by simp)
  | cons d m ih =>
    obtain ⟨a, b⟩ := d
    obtain ⟨hlt, hb, hm⟩ := Memory.wf_cons.1 h
    unfold Memory.write
    split
    · rename_i hia
      refine Memory.wf_entry_append h fun c hc => ?_
      rcases List.mem_cons.1 hc with rfl | hc
      · exact hia
      · exact Nat.lt_trans hia (hlt c hc)
    · split
      · rename_i hia
        subst hia
        exact Memory.wf_entry_append hm hlt
      · refine Memory.wf_cons.2 ⟨fun c hc => ?_, hb, ih hm⟩
        rcases Memory.mem_write hc with ⟨rfl, _⟩ | hc
        · show a < i
          omega
        · exact hlt c hc

/-- A buffer with every listed index below `n`. -/
def Memory.below (n : Nat) (m : Memory) : Prop := ∀ c ∈ m, c.1 < n

theorem Memory.below_write {n : Nat} {m : Memory} (h : m.below n) {i : Nat} (hi : i < n) (v : Byte) :
    Memory.below n (m.write i v) := by
  intro c hc
  rcases Memory.mem_write hc with ⟨rfl, _⟩ | hc
  · exact hi
  · exact h c hc

/-- An index that no entry lists reads as unlisted. -/
theorem Memory.read_outside {n : Nat} {m : Memory} (h : m.below n) {i : Nat} (hi : n ≤ i) :
    m.read i = Memory.unlisted := by
  induction m with
  | nil => rfl
  | cons c m ih =>
    have h1 : c.1 < n := h c (by simp)
    have h2 := ih fun d hd => h d (by simp [hd])
    simp [Memory.read, h2]
    omega

/-- Two buffers in canonical form that read the same at every index are equal. -/
theorem Memory.ext_of_wf : ∀ {m m' : Memory}, m.wf → m'.wf → (∀ i, m.read i = m'.read i) → m = m'
  | [], [], _, _, _ => rfl
  | [], (a, v) :: m', _, h', heq => by
    have := heq a
    have hv := (Memory.wf_cons.1 h').2.1
    simp [Memory.read] at this
    exact absurd this.symm hv
  | (a, v) :: m, [], h, _, heq => by
    have := heq a
    have hv := (Memory.wf_cons.1 h).2.1
    simp [Memory.read] at this
    exact absurd this hv
  | (a, v) :: m, (a', v') :: m', h, h', heq => by
    obtain ⟨hlt, hv, hm⟩ := Memory.wf_cons.1 h
    obtain ⟨hlt', hv', hm'⟩ := Memory.wf_cons.1 h'
    have key : a = a' := by
      rcases Nat.lt_trichotomy a a' with hlt1 | rfl | hlt1
      · have := heq a
        rw [Memory.read_below (m := (a', v') :: m')] at this
        · simp [Memory.read] at this; exact absurd this hv
        · intro c hc
          rcases List.mem_cons.1 hc with rfl | hc
          · exact hlt1
          · exact Nat.lt_trans hlt1 (hlt' c hc)
      · rfl
      · have := heq a'
        rw [Memory.read_below (m := (a, v) :: m)] at this
        · simp [Memory.read] at this; exact absurd this.symm hv'
        · intro c hc
          rcases List.mem_cons.1 hc with rfl | hc
          · exact hlt1
          · exact Nat.lt_trans hlt1 (hlt c hc)
    subst key
    have hvv : v = v' := by simpa [Memory.read] using heq a
    subst hvv
    have : m = m' := by
      refine Memory.ext_of_wf hm hm' fun i => ?_
      by_cases hai : a = i
      · subst hai
        rw [Memory.read_below hlt, Memory.read_below hlt']
      · simpa [Memory.read, hai] using heq i
    rw [this]

/-! ### Filling -/

theorem fill_range {m : Memory} (h : m.wf) (b : Byte) (n : Nat) :
    Memory.wf ((List.range n).foldl (fun m i => m.write i b) m)
      ∧ ∀ j, ((List.range n).foldl (fun m i => m.write i b) m).read j = if j < n then b else m.read j := by
  induction n with
  | zero => exact ⟨h, fun j => by simp⟩
  | succ n ih =>
    simp only [List.range_succ, List.foldl_append, List.foldl_cons, List.foldl_nil]
    refine ⟨Memory.wf_write ih.1 _ _, fun j => ?_⟩
    rw [Memory.read_write ih.1, ih.2]
    by_cases hj : j < n
    · simp [hj, Nat.lt_succ_of_lt hj]
    · by_cases hjn : n = j
      · simp [hjn]
      · simp [hjn, hj]
        intro; omega

/-- Every byte of the buffer reads the byte filled in (42_pixel R102), every other index as before. -/
theorem read_fillBytes {fb : Memory} (h : fb.wf) (p : Params) (b : Byte) (j : Nat) :
    (fillBytes p b fb).read j = if j < p.NB then b else fb.read j := (fill_range h b p.NB).2 j

theorem wf_fillBytes {fb : Memory} (h : fb.wf) (p : Params) (b : Byte) : Memory.wf (fillBytes p b fb) :=
  (fill_range h b p.NB).1

theorem below_fillBytes {fb : Memory} {p : Params} (h : fb.below p.NB) (b : Byte) :
    (fillBytes p b fb).below p.NB := by
  have key : ∀ n, n ≤ p.NB → Memory.below p.NB ((List.range n).foldl (fun m i => m.write i b) fb) := by
    intro n
    induction n with
    | zero => intro _; simpa using h
    | succ n ih =>
      intro hn
      simp only [List.range_succ, List.foldl_append, List.foldl_cons, List.foldl_nil]
      exact Memory.below_write (ih (by omega)) (by omega) _
  exact key p.NB (Nat.le_refl _)

/-- The OR merge on bytes (20_memory R36). -/
theorem read_orByte {fb : Memory} (h : fb.wf) (i j : Nat) (v : Byte) :
    (orByte fb i v).read j = if i = j then fb.read j ||| v else fb.read j := by
  unfold orByte
  rw [Memory.read_write h]
  by_cases hij : i = j <;> simp [hij]

theorem wf_orByte {fb : Memory} (h : fb.wf) (i : Nat) (v : Byte) : Memory.wf (orByte fb i v) :=
  Memory.wf_write h _ _

theorem below_orByte {n : Nat} {fb : Memory} (h : fb.below n) {i : Nat} (hi : i < n) (v : Byte) :
    (orByte fb i v).below n := Memory.below_write h hi _

end Sys2Proof.Machine
end

