-- ==== Sys2Proof/Laws/Pixels.lean ====
section
/-! SUPPORT. What SETPIXEL and the operations routed through it do to the buffer: bytes, pixels, canonical form, bounds. -/

namespace Sys2Proof.Machine

theorem inRange_iff {p : Params} {x y : Int} :
    inRange p x y = true ↔ 0 ≤ x ∧ x < p.W ∧ 0 ≤ y ∧ y < p.H := by
  simp [inRange, and_assoc]

/-- Two columns of two pages share an index only if they are the same (20_memory R33). -/
theorem index_inj {W page page' c c' : Nat} (hc : c < W) (hc' : c' < W) (h : page * W + c = page' * W + c') :
    page = page' ∧ c = c' := by
  have hp : page = page' := by
    have h1 : (page * W + c) / W = page := by
      rw [Nat.add_comm, Nat.add_mul_div_right _ _ (by omega), Nat.div_eq_of_lt hc, Nat.zero_add]
    have h2 : (page' * W + c') / W = page' := by
      rw [Nat.add_comm, Nat.add_mul_div_right _ _ (by omega), Nat.div_eq_of_lt hc', Nat.zero_add]
    rw [← h1, ← h2, h]
  subst hp
  exact ⟨rfl, by omega⟩

/-- Every index the converter forms from a page and a column lies in the buffer (20_memory R32, R42). -/
theorem index_lt {p : Params} {page c : Nat} (hp : page < p.NP) (hc : c < p.W) : page * p.W + c < p.NB := by
  have : (page + 1) * p.W ≤ p.NP * p.W := Nat.mul_le_mul_right _ hp
  have h2 : (page + 1) * p.W = page * p.W + p.W := by ring
  unfold Params.NB
  omega

theorem page_lt {p : Params} {y : Nat} (hl : p.H = 8 * p.NP) (hy : y < p.H) : y / 8 < p.NP := by omega

/-- The single-bit update of 20_memory R35, bit by bit. -/
theorem updateBit_bit (b : Byte) (n k : Nat) (color : Bit) (hn : n < 8) (hk : k < 8) :
    (updateBit b (1#8 <<< n) color).getLsbD k = if k = n then color == 1 else b.getLsbD k := by
  have hc : color = 0 ∨ color = 1 := by revert color; decide
  rcases hc with rfl | rfl
  · by_cases h : k = n
    · subst h; simp [updateBit, hk]
    · simp [updateBit, hk, h]
      rcases Nat.lt_or_ge k n with h1 | h1
      · simp [h1]
      · have : ¬ (k - n = 0) := by omega
        simp [this]
  · by_cases h : k = n
    · subst h; simp [updateBit, hk]
    · simp [updateBit, hk, h]
      intro h1 h2
      omega

theorem read_putPixel {fb : Memory} (h : fb.wf) (p : Params) (color : Bit) (q : Int × Int) (j : Nat) :
    (putPixel p color fb q).read j =
      if inRange p q.1 q.2 ∧ (convert p.W q.1.toNat q.2.toNat).index = j then
        updateBit (fb.read j) (convert p.W q.1.toNat q.2.toNat).mask color
      else fb.read j := by
  unfold putPixel
  by_cases hr : inRange p q.1 q.2 = true
  · simp only [hr, if_true, true_and]
    rw [Memory.read_write h]
    by_cases hj : (convert p.W q.1.toNat q.2.toNat).index = j
    · simp [hj]
    · simp [hj]
  · simp [hr]

theorem wf_putPixel {fb : Memory} (h : fb.wf) (p : Params) (color : Bit) (q : Int × Int) :
    Memory.wf (putPixel p color fb q) := by
  unfold putPixel
  split
  · exact Memory.wf_write h _ _
  · exact h

theorem below_putPixel {p : Params} (hl : p.H = 8 * p.NP) {fb : Memory} (h : fb.below p.NB) (color : Bit)
    (q : Int × Int) : (putPixel p color fb q).below p.NB := by
  unfold putPixel
  split
  · rename_i hr
    obtain ⟨h1, h2, h3, h4⟩ := inRange_iff.1 hr
    exact Memory.below_write h (index_lt (page_lt hl (by omega)) (by omega)) _
  · exact h

/-- SETPIXEL changes the pixel it names and no other (42_pixel R103, 20_memory R33, R35). -/
theorem pixelOn_putPixel {fb : Memory} (h : fb.wf) (p : Params) (color : Bit) (q : Int × Int) {x y : Int}
    (hr : inRange p x y = true) :
    pixelOn p (putPixel p color fb q) x y = if q = (x, y) then color == 1 else pixelOn p fb x y := by
  obtain ⟨hx0, hx, hy0, hy⟩ := inRange_iff.1 hr
  unfold pixelOn
  rw [read_putPixel h]
  simp only [hr, Bool.true_and]
  by_cases hq : q = (x, y)
  · subst hq
    have hm : y.toNat % 8 < 8 := Nat.mod_lt _ (by decide)
    simp only [hr, convert, and_self, if_true]
    rw [updateBit_bit _ _ _ _ hm hm]
    simp
  · by_cases hc : inRange p q.1 q.2 = true ∧ (convert p.W q.1.toNat q.2.toNat).index = y.toNat / 8 * p.W + x.toNat
    · obtain ⟨hqr, hi⟩ := hc
      obtain ⟨a0, a1, b0, b1⟩ := inRange_iff.1 hqr
      obtain ⟨hp, hcol⟩ := index_inj (W := p.W) (by omega) (by omega) hi
      have hbit : y.toNat % 8 ≠ q.2.toNat % 8 := by
        intro hb
        apply hq
        have : q.1 = x := by omega
        have : q.2 = y := by omega
        exact Prod.ext ‹_› ‹_›
      rw [if_pos ⟨hqr, hi⟩, if_neg hq]
      show (updateBit _ (1#8 <<< (q.2.toNat % 8)) color).getLsbD _ = _
      rw [updateBit_bit _ _ _ _ (Nat.mod_lt _ (by decide)) (Nat.mod_lt _ (by decide))]
      simp [hbit]
    · simp [hc, hq]

/-! ### Plotting a list of pixels -/

theorem wf_plot {fb : Memory} (h : fb.wf) (p : Params) (color : Bit) (qs : List (Int × Int)) :
    Memory.wf (plot p color qs fb) := by
  induction qs generalizing fb with
  | nil => exact h
  | cons q qs ih => exact ih (wf_putPixel h p color q)

theorem below_plot {p : Params} (hl : p.H = 8 * p.NP) {fb : Memory} (h : fb.below p.NB) (color : Bit)
    (qs : List (Int × Int)) : (plot p color qs fb).below p.NB := by
  induction qs generalizing fb with
  | nil => exact h
  | cons q qs ih => exact ih (below_putPixel hl h color q)

/-- Plotting forces exactly the listed in-range pixels to the colour (42_pixel R106). -/
theorem pixelOn_plot {fb : Memory} (h : fb.wf) (p : Params) (color : Bit) (qs : List (Int × Int)) {x y : Int}
    (hr : inRange p x y = true) :
    pixelOn p (plot p color qs fb) x y = if (x, y) ∈ qs then color == 1 else pixelOn p fb x y := by
  induction qs generalizing fb with
  | nil => simp [plot]
  | cons q qs ih =>
    have hstep : plot p color (q :: qs) fb = plot p color qs (putPixel p color fb q) := rfl
    rw [hstep, ih (wf_putPixel h p color q), pixelOn_putPixel h p color q hr]
    by_cases hm : (x, y) ∈ qs
    · simp [hm]
    · by_cases hq : q = (x, y)
      · simp [hq]
      · have : (x, y) ≠ q := fun e => hq e.symm
        simp [hm, hq, this]

/-- A byte that no listed in-range pixel lies in is unchanged. -/
theorem read_plot_other {fb : Memory} (h : fb.wf) (p : Params) (color : Bit) (qs : List (Int × Int)) {j : Nat}
    (hj : ∀ q ∈ qs, inRange p q.1 q.2 = true → (convert p.W q.1.toNat q.2.toNat).index ≠ j) :
    (plot p color qs fb).read j = fb.read j := by
  induction qs generalizing fb with
  | nil => rfl
  | cons q qs ih =>
    have hstep : plot p color (q :: qs) fb = plot p color qs (putPixel p color fb q) := rfl
    rw [hstep, ih (wf_putPixel h p color q) (fun r hm => hj r (by simp [hm])), read_putPixel h]
    have := hj q (by simp)
    by_cases hr : inRange p q.1 q.2 = true
    · simp [hr, this hr]
    · simp [hr]

/-- Two buffers in canonical form and in bounds with the same pixels are equal (20_memory R31, R33). -/
theorem fb_eq_of_pixels {p : Params} (hl : p.H = 8 * p.NP) (hW : 0 < p.W) {fb fb' : Memory} (h : fb.wf) (h' : fb'.wf)
    (hb : fb.below p.NB) (hb' : fb'.below p.NB)
    (heq : ∀ x y : Int, inRange p x y = true → pixelOn p fb x y = pixelOn p fb' x y) : fb = fb' := by
  refine Memory.ext_of_wf h h' fun i => ?_
  by_cases hi : i < p.NB
  · refine BitVec.eq_of_getLsbD_eq fun k hk => ?_
    have hpage : i / p.W < p.NP := (Nat.div_lt_iff_lt_mul hW).2 hi
    have hcol : i % p.W < p.W := Nat.mod_lt _ hW
    have hr : inRange p ((i % p.W : Nat) : Int) ((i / p.W * 8 + k : Nat) : Int) = true := by
      rw [inRange_iff]
      omega
    have := heq _ _ hr
    unfold pixelOn at this
    rw [hr] at this
    simp only [Int.toNat_natCast, Bool.true_and] at this
    have e1 : (i / p.W * 8 + k) / 8 = i / p.W := by omega
    have e2 : (i / p.W * 8 + k) % 8 = k := by omega
    rw [e1, e2, Nat.div_add_mod' i p.W] at this
    exact this
  · rw [Memory.read_outside hb (by omega), Memory.read_outside hb' (by omega)]

/-! ### Boxes -/

theorem mem_span {a n k : Int} : k ∈ span a n ↔ a ≤ k ∧ k < a + n := by
  simp only [span, List.mem_map, List.mem_range]
  constructor
  · rintro ⟨i, hi, rfl⟩
    omega
  · intro h
    exact ⟨(k - a).toNat, by omega, by omega⟩

/-- The pixels of a box (42_pixel R104). -/
theorem mem_boxPixels {x y w h i j : Int} :
    (i, j) ∈ boxPixels x y w h ↔ x ≤ i ∧ i < x + w ∧ y ≤ j ∧ j < y + h := by
  simp only [boxPixels, List.mem_flatMap, List.mem_map, mem_span, Prod.mk.injEq]
  constructor
  · rintro ⟨j', hj, i', hi, rfl, rfl⟩
    exact ⟨hi.1, hi.2, hj.1, hj.2⟩
  · rintro ⟨h1, h2, h3, h4⟩
    exact ⟨j, ⟨h3, h4⟩, i, ⟨h1, h2⟩, rfl, rfl⟩

/-- The pixels a bitmap plots (43_glyph R112). -/
theorem mem_bitmapPixels {x y w h i j : Int} {src : List Byte} :
    (i, j) ∈ bitmapPixels x y w h src ↔
      (x ≤ i ∧ i < x + w ∧ y ≤ j ∧ j < y + h) ∧ sourceBit w.toNat src (i - x).toNat (j - y).toNat = true := by
  simp only [bitmapPixels, List.mem_flatMap, List.mem_map, List.mem_filter, List.mem_range, Prod.mk.injEq]
  constructor
  · rintro ⟨a, ha, b, ⟨hb, hs⟩, rfl, rfl⟩
    have e1 : (x + (a : Int) - x).toNat = a := by omega
    have e2 : (y + (b : Int) - y).toNat = b := by omega
    rw [e1, e2]
    exact ⟨by omega, hs⟩
  · rintro ⟨hb, hs⟩
    exact ⟨(i - x).toNat, by omega, (j - y).toNat, ⟨by omega, hs⟩, by omega, by omega⟩

end Sys2Proof.Machine
end

