-- ==== Sys2Proof/Laws/Glyphs.lean ====
section
/-! SUPPORT. What a glyph does to the buffer: pixels, bytes, canonical form, bounds (43_glyph R110, R111). -/

namespace Sys2Proof.Machine

theorem wf_mergeColumn {fb : Memory} (h : fb.wf) (p : Params) (page s c : Nat) (g : Byte) :
    Memory.wf (mergeColumn p page s c g fb) := by
  unfold mergeColumn
  split
  · exact wf_orByte (wf_orByte h _ _) _ _
  · exact wf_orByte h _ _

theorem below_mergeColumn {p : Params} {fb : Memory} (h : fb.below p.NB) {page c : Nat} (hp : page < p.NP)
    (hc : c < p.W) (s : Nat) (g : Byte) : (mergeColumn p page s c g fb).below p.NB := by
  unfold mergeColumn
  split
  · exact below_orByte (below_orByte h (index_lt hp hc) _) (index_lt ‹_› hc) _
  · exact below_orByte h (index_lt hp hc) _

/-- The two bytes of a glyph column. -/
theorem read_mergeColumn {fb : Memory} (h : fb.wf) {p : Params} {page s c : Nat} (hc : c < p.W) (g : Byte) (j : Nat) :
    (mergeColumn p page s c g fb).read j =
      if page * p.W + c = j then fb.read j ||| (g <<< s)
      else if page + 1 < p.NP ∧ (page + 1) * p.W + c = j then fb.read j ||| (g >>> (8 - s))
      else fb.read j := by
  have hne : page * p.W + c ≠ (page + 1) * p.W + c := by
    have : (page + 1) * p.W = page * p.W + p.W := by ring
    omega
  unfold mergeColumn
  by_cases hn : page + 1 < p.NP
  · simp only [hn, if_true, true_and]
    rw [read_orByte (wf_orByte h _ _), read_orByte h]
    by_cases h1 : page * p.W + c = j
    · have h2 : ¬ (page + 1) * p.W + c = j := fun e => hne (h1.trans e.symm)
      simp [h1, h2]
    · simp [h1]
  · simp only [hn, if_false, false_and]
    rw [read_orByte h]

/-- A pixel after one glyph column: on before, or the glyph's row that lands on it (43_glyph R110). -/
theorem pixelOn_mergeColumn {fb : Memory} (h : fb.wf) {p : Params} (hl : p.H = 8 * p.NP) {c : Nat} (hc : c < p.W)
    {y : Int} (hy0 : 0 ≤ y) (g : Byte) {px py : Int} (hr : inRange p px py = true) :
    pixelOn p (mergeColumn p (y.toNat / 8) (y.toNat % 8) c g fb) px py =
      (pixelOn p fb px py
        || (decide (px = c) && (decide (y ≤ py) && g.getLsbD (py - y).toNat))) := by
  obtain ⟨hx0, hx, hp0, hp⟩ := inRange_iff.1 hr
  unfold pixelOn
  rw [read_mergeColumn h hc]
  simp only [hr, Bool.true_and]
  have hk : py.toNat % 8 < 8 := Nat.mod_lt _ (by decide)
  by_cases hpx : px = c
  · have hcx : px.toNat = c := by omega
    rw [hcx]
    by_cases h1 : y.toNat / 8 * p.W + c = py.toNat / 8 * p.W + c
    · have hpage : y.toNat / 8 = py.toNat / 8 := (index_inj hc hc h1).1
      simp only [h1, if_true, hpx, decide_true, Bool.true_and]
      rw [BitVec.getLsbD_or, BitVec.getLsbD_shiftLeft]
      congr 1
      by_cases hs : py.toNat % 8 < y.toNat % 8
      · have : ¬ y ≤ py := by omega
        simp [hs, this]
      · have h2 : y ≤ py := by omega
        have h3 : py.toNat % 8 - y.toNat % 8 = (py - y).toNat := by omega
        simp [hs, h2, h3, hk]
    · simp only [h1, if_false]
      by_cases h2 : y.toNat / 8 + 1 < p.NP ∧ (y.toNat / 8 + 1) * p.W + c = py.toNat / 8 * p.W + c
      · have hpage : y.toNat / 8 + 1 = py.toNat / 8 := (index_inj hc hc h2.2).1
        have h3 : y ≤ py := by omega
        have h4 : 8 - y.toNat % 8 + py.toNat % 8 = (py - y).toNat := by omega
        simp only [h2, and_self, if_true, hpx, decide_true, Bool.true_and, h3]
        rw [BitVec.getLsbD_or, BitVec.getLsbD_ushiftRight, h4]
      · simp only [h2, if_false]
        have hpage : py.toNat / 8 ≠ y.toNat / 8 := fun e => h1 (by rw [e])
        have hpage2 : py.toNat / 8 ≠ y.toNat / 8 + 1 := by
          intro e
          exact h2 ⟨by omega, by rw [e]⟩
        by_cases hle : y ≤ py
        · have hge : 8 ≤ (py - y).toNat := by omega
          have : g.getLsbD (py - y).toNat = false := BitVec.getLsbD_of_ge _ _ hge
          simp [this]
        · simp [hle]
  · have h1 : ∀ page : Nat, page * p.W + c ≠ py.toNat / 8 * p.W + px.toNat := by
      intro page e
      have := (index_inj hc (by omega) e).2
      omega
    simp [h1, hpx]

/-- The column loop, for columns in rising order, which is how 43_glyph R110 runs it. -/
theorem mergeColumns_facts {p : Params} (hl : p.H = 8 * p.NP) {x y : Int} (hy0 : 0 ≤ y) (hy : y < p.H) (g : Nat → Byte) :
    ∀ (cols : List Nat) (fb : Memory), cols.Pairwise (· < ·) → fb.wf →
      Memory.wf (mergeColumns p x (y.toNat / 8) (y.toNat % 8) g cols fb)
      ∧ (fb.below p.NB → (mergeColumns p x (y.toNat / 8) (y.toNat % 8) g cols fb).below p.NB)
      ∧ (∀ px py : Int, inRange p px py = true →
          pixelOn p (mergeColumns p x (y.toNat / 8) (y.toNat % 8) g cols fb) px py =
            (pixelOn p fb px py || decide (∃ col ∈ cols, x + (col : Int) = px ∧ y ≤ py ∧
              (g col).getLsbD (py - y).toNat = true)))
      ∧ (∀ j, (∀ col ∈ cols, 0 ≤ x + (col : Int) → x + (col : Int) < p.W →
            y.toNat / 8 * p.W + (x + (col : Int)).toNat ≠ j
            ∧ (y.toNat / 8 + 1 < p.NP → (y.toNat / 8 + 1) * p.W + (x + (col : Int)).toNat ≠ j)) →
          (mergeColumns p x (y.toNat / 8) (y.toNat % 8) g cols fb).read j = fb.read j) := by
  intro cols
  induction cols with
  | nil => intro fb _ h; exact ⟨h, id, fun px py _ => by simp [mergeColumns], fun j _ => rfl⟩
  | cons col cols ih =>
    intro fb hsorted h
    obtain ⟨hlt, hrest⟩ := List.pairwise_cons.1 hsorted
    unfold mergeColumns
    split
    · rename_i hge
      refine ⟨h, id, fun px py hr => ?_, fun j _ => rfl⟩
      obtain ⟨_, hx, _, _⟩ := inRange_iff.1 hr
      have hno : ¬ ∃ c ∈ col :: cols, x + (c : Int) = px ∧ y ≤ py ∧ (g c).getLsbD (py - y).toNat = true := by
        rintro ⟨c, hc, he, _⟩
        rcases List.mem_cons.1 hc with rfl | hc
        · omega
        · have := hlt c hc
          omega
      rw [decide_eq_false hno, Bool.or_false]
    · split
      · rename_i hnge hneg
        obtain ⟨i1, i2, i3, i4⟩ := ih fb hrest h
        refine ⟨i1, i2, fun px py hr => ?_, fun j hj => i4 j fun c hc => hj c (by simp [hc])⟩
        rw [i3 px py hr]
        obtain ⟨hx0, _, _, _⟩ := inRange_iff.1 hr
        congr 1
        refine decide_eq_decide.2 ⟨?_, ?_⟩
        · rintro ⟨c, hc, he⟩
          exact ⟨c, by simp [hc], he⟩
        · rintro ⟨c, hc, he, hh⟩
          rcases List.mem_cons.1 hc with rfl | hc
          · omega
          · exact ⟨c, hc, he, hh⟩
      · rename_i hnge hnneg
        have hcW : (x + (col : Int)).toNat < p.W := by omega
        obtain ⟨i1, i2, i3, i4⟩ := ih _ hrest (wf_mergeColumn h p (y.toNat / 8) (y.toNat % 8) (x + (col : Int)).toNat (g col))
        refine ⟨i1, fun hb => i2 (below_mergeColumn hb (page_lt hl (by omega)) hcW _ _), fun px py hr => ?_, fun j hj => ?_⟩
        · rw [i3 px py hr, pixelOn_mergeColumn h hl hcW hy0 _ hr, Bool.or_assoc]
          congr 1
          rw [Bool.eq_iff_iff]
          simp only [Bool.or_eq_true, Bool.and_eq_true, decide_eq_true_eq]
          constructor
          · rintro (⟨he, hle, hg⟩ | ⟨c, hc, hh⟩)
            · exact ⟨col, by simp, by omega, hle, hg⟩
            · exact ⟨c, by simp [hc], hh⟩
          · rintro ⟨c, hc, he, hh⟩
            rcases List.mem_cons.1 hc with rfl | hc
            · exact .inl ⟨by omega, hh⟩
            · exact .inr ⟨c, hc, he, hh⟩
        · rw [i4 j fun c hc => hj c (by simp [hc]), read_mergeColumn h hcW]
          obtain ⟨h1, h2⟩ := hj col (by simp) (by omega) (by omega)
          simp only [h1, if_false]
          by_cases hn : y.toNat / 8 + 1 < p.NP
          · simp [h2 hn]
          · simp [hn]

theorem glyphColumns_sorted : [0, 1, 2, 3, 4].Pairwise (· < · : Nat → Nat → Prop) := by decide

theorem wf_mergeGlyph {p : Params} (hl : p.H = 8 * p.NP) {fb : Memory} (h : fb.wf) (x y : Int) (g : Nat → Byte) :
    Memory.wf (mergeGlyph p x y g fb) := by
  unfold mergeGlyph
  split
  · exact h
  · exact (mergeColumns_facts hl (by omega) (by omega) g _ fb glyphColumns_sorted h).1

theorem below_mergeGlyph {p : Params} (hl : p.H = 8 * p.NP) {fb : Memory} (h : fb.wf) (hb : fb.below p.NB) (x y : Int)
    (g : Nat → Byte) : (mergeGlyph p x y g fb).below p.NB := by
  unfold mergeGlyph
  split
  · exact hb
  · exact (mergeColumns_facts hl (by omega) (by omega) g _ fb glyphColumns_sorted h).2.1 hb

/-- A pixel after a glyph: on before, or the glyph is on there, its row `k` on buffer row `y + k` (43_glyph R110). -/
theorem pixelOn_mergeGlyph {p : Params} (hl : p.H = 8 * p.NP) {fb : Memory} (h : fb.wf) (x y : Int) (g : Nat → Byte)
    {px py : Int} (hr : inRange p px py = true) :
    pixelOn p (mergeGlyph p x y g fb) px py =
      (pixelOn p fb px py || (decide (0 ≤ y ∧ y < p.H) && (decide (x ≤ px ∧ px < x + 5) && (decide (y ≤ py) &&
        (g (px - x).toNat).getLsbD (py - y).toNat)))) := by
  unfold mergeGlyph
  split
  · have : ¬ (0 ≤ y ∧ y < p.H) := by omega
    simp [this]
  · have hyr : 0 ≤ y ∧ y < p.H := by omega
    rw [(mergeColumns_facts hl hyr.1 hyr.2 g _ fb glyphColumns_sorted h).2.2.1 px py hr]
    congr 1
    rw [Bool.eq_iff_iff]
    simp only [hyr, and_self, decide_true, Bool.true_and, Bool.and_eq_true, decide_eq_true_eq]
    constructor
    · rintro ⟨c, hc, he, hle, hg⟩
      have hc5 : c < 5 := by simp at hc; omega
      have : (px - x).toNat = c := by omega
      rw [this]
      exact ⟨by omega, hle, hg⟩
    · rintro ⟨hb, hle, hg⟩
      exact ⟨(px - x).toNat, by simp; omega, by omega, hle, hg⟩

/-- A byte in which no visible column of the glyph lies is unchanged (43_glyph R110). -/
theorem read_mergeGlyph_other {p : Params} (hl : p.H = 8 * p.NP) {fb : Memory} (h : fb.wf) (x y : Int) (g : Nat → Byte)
    {j : Nat} (hj : 0 ≤ y → y < p.H → ∀ col : Nat, col < 5 → 0 ≤ x + (col : Int) → x + (col : Int) < p.W →
      y.toNat / 8 * p.W + (x + (col : Int)).toNat ≠ j
      ∧ (y.toNat / 8 + 1 < p.NP → (y.toNat / 8 + 1) * p.W + (x + (col : Int)).toNat ≠ j)) :
    (mergeGlyph p x y g fb).read j = fb.read j := by
  unfold mergeGlyph
  split
  · rfl
  · have hyr : 0 ≤ y ∧ y < p.H := by omega
    refine (mergeColumns_facts hl hyr.1 hyr.2 g _ fb glyphColumns_sorted h).2.2.2 j fun col hc => ?_
    exact hj hyr.1 hyr.2 col (by simp at hc; omega)

/-! ### Text -/

theorem wf_drawText {y : Int} (t : List Byte) : ∀ (x : Int) (s : State), s.inst.H = 8 * s.inst.NP → s.fb.wf →
    Memory.wf (drawText x y t s).fb := by
  induction t with
  | nil => intro x s _ h; exact h
  | cons ch t ih =>
    intro x s hl h
    exact ih (x + 6) (drawGlyph x y ch s) hl (wf_mergeGlyph hl h x y _)

theorem below_drawText {y : Int} (t : List Byte) : ∀ (x : Int) (s : State), s.inst.H = 8 * s.inst.NP → s.fb.wf →
    s.fb.below s.inst.NB → (drawText x y t s).fb.below s.inst.NB := by
  induction t with
  | nil => intro x s _ _ h; exact h
  | cons ch t ih =>
    intro x s hl h hb
    exact ih (x + 6) (drawGlyph x y ch s) hl (wf_mergeGlyph hl h x y _) (below_mergeGlyph hl h hb x y _)

end Sys2Proof.Machine
end

