-- ==== Sys2Proof/Laws/Exec.lean ====
section
/-! SUPPORT. What exec can do, said once: the frames an instruction sends, what it leaves in FB, when it is refused. -/

namespace Sys2Proof.Machine

/-- The frames an instruction sends in a state: none for the drawing operations (42_pixel R100). -/
def framesOf (s : State) : Instr → List Frame
  | .wrcmd b => [⟨.command, b⟩]
  | .wrdat b => [⟨.data, b⟩]
  | .setContrast v => commandFrames (contrastBytes v)
  | .setDispMode sel => commandFrames (dispModeBytes sel)
  | .setDisplayOn on => commandFrames (displayOnBytes on)
  | .setColStart v => commandFrames (colStartBytes v)
  | .setAddrMode mode => commandFrames (addrModeBytes mode)
  | .setColRange start stop => commandFrames (colRangeBytes start stop)
  | .setPageRange start stop => commandFrames (pageRangeBytes start stop)
  | .setPageStart page => commandFrames (pageStartBytes page)
  | .setStartLine line => commandFrames (startLineBytes line)
  | .setSegRemap bit => commandFrames (segRemapBytes bit)
  | .setMuxRatio ratio => commandFrames (muxRatioBytes ratio)
  | .setComScan bit => commandFrames (comScanBytes bit)
  | .setOffset offset => commandFrames (offsetBytes offset)
  | .setComPins seq remap => commandFrames (comPinsBytes seq remap)
  | .setClock divide freq => commandFrames (clockBytes divide freq)
  | .setPrecharge phase1 phase2 => commandFrames (prechargeBytes phase1 phase2)
  | .setVcomh sel => commandFrames (vcomhBytes sel)
  | .setChargePump enable => commandFrames (chargePumpBytes enable)
  | .flush => flushFrames s.inst s.fb
  | .wireContrast v => commandFrames (Instr.wireBytes (.wireContrast v))
  | .wireDispMode sel => commandFrames (Instr.wireBytes (.wireDispMode sel))
  | .wireDisplayOn o => commandFrames (Instr.wireBytes (.wireDisplayOn o))
  | .wireColStart l h => commandFrames (Instr.wireBytes (.wireColStart l h))
  | .wireAddrMode m => commandFrames (Instr.wireBytes (.wireAddrMode m))
  | .wireColRange start stop => commandFrames (Instr.wireBytes (.wireColRange start stop))
  | .wirePageRange start stop => commandFrames (Instr.wireBytes (.wirePageRange start stop))
  | .wirePageStart p => commandFrames (Instr.wireBytes (.wirePageStart p))
  | .wireStartLine l => commandFrames (Instr.wireBytes (.wireStartLine l))
  | .wireSegRemap b => commandFrames (Instr.wireBytes (.wireSegRemap b))
  | .wireMuxRatio r => commandFrames (Instr.wireBytes (.wireMuxRatio r))
  | .wireComScan b => commandFrames (Instr.wireBytes (.wireComScan b))
  | .wireOffset o => commandFrames (Instr.wireBytes (.wireOffset o))
  | .wireComPins r seq => commandFrames (Instr.wireBytes (.wireComPins r seq))
  | .wireClock f d => commandFrames (Instr.wireBytes (.wireClock f d))
  | .wirePrecharge q p => commandFrames (Instr.wireBytes (.wirePrecharge q p))
  | .wireVcomh c => commandFrames (Instr.wireBytes (.wireVcomh c))
  | .wireChargePump e => commandFrames (Instr.wireBytes (.wireChargePump e))
  | .clear | .fill _ | .setPixel _ _ _ | .drawRect _ _ _ _ _ | .fillRect _ _ _ _ _ | .drawChar _ _ _ | .drawString _ _ _ | .drawBitmap _ _ _ _ _ | .drawNumber _ _ _ _ => []

/-- The state after a drawing operation; any other instruction leaves FB and the counter alone (41_controller R80). -/
def drawnBy (s : State) : Instr → State
  | .clear => draw (fillBytes s.inst 0x00) s
  | .fill b => draw (fillBytes s.inst b) s
  | .setPixel x y color => draw (fun fb => putPixel s.inst color fb (x, y)) s
  | .drawRect x y w h color =>
    draw (plot s.inst color ((boxPixels x y w h).filter fun q => onPerimeter x y w h q.1 q.2)) s
  | .fillRect x y w h color => draw (plot s.inst color (boxPixels x y w h)) s
  | .drawChar x y ch => drawGlyph x y ch s
  | .drawString x y t => drawText x y t s
  | .drawBitmap x y w h src => draw (plot s.inst 1 (bitmapPixels x y w h src)) s
  | .drawNumber x y value zeroFill => drawText x y (numberText value zeroFill) s
  | .wrcmd _ | .wrdat _ | .setContrast _ | .setDispMode _ | .setDisplayOn _ | .setColStart _ | .setAddrMode _
  | .setColRange _ _ | .setPageRange _ _ | .setPageStart _ | .setStartLine _ | .setSegRemap _ | .setMuxRatio _
  | .setComScan _ | .setOffset _ | .setComPins _ _ | .setClock _ _ | .setPrecharge _ _ | .setVcomh _
  | .setChargePump _ | .flush | .wireContrast _ | .wireDispMode _ | .wireDisplayOn _ | .wireColStart _ _
  | .wireAddrMode _ | .wireColRange _ _ | .wirePageRange _ _ | .wirePageStart _ | .wireStartLine _ | .wireSegRemap _
  | .wireMuxRatio _ | .wireComScan _ | .wireOffset _ | .wireComPins _ _ | .wireClock _ _ | .wirePrecharge _ _
  | .wireVcomh _ | .wireChargePump _ => s

/-- The operands an operation refuses (60_exceptions R136). -/
def refusedOperand : Instr → Option Reject
  | .setAddrMode mode => if mode = 3 then some .reservedOperand else none
  | .drawBitmap _ _ w h src => if sourceShort w h src then some .shortSource else none
  | .wrcmd _ | .wrdat _ | .setContrast _ | .setDispMode _ | .setDisplayOn _ | .setColStart _ | .setColRange _ _
  | .setPageRange _ _ | .setPageStart _ | .setStartLine _ | .setSegRemap _ | .setMuxRatio _ | .setComScan _
  | .setOffset _ | .setComPins _ _ | .setClock _ _ | .setPrecharge _ _ | .setVcomh _ | .setChargePump _ | .clear
  | .fill _ | .setPixel _ _ _ | .drawRect _ _ _ _ _ | .fillRect _ _ _ _ _ | .drawChar _ _ _ | .drawString _ _ _
  | .drawNumber _ _ _ _ | .flush | .wireContrast _ | .wireDispMode _ | .wireDisplayOn _ | .wireColStart _ _
  | .wireAddrMode _ | .wireColRange _ _ | .wirePageRange _ _ | .wirePageStart _ | .wireStartLine _ | .wireSegRemap _
  | .wireMuxRatio _ | .wireComScan _ | .wireOffset _ | .wireComPins _ _ | .wireClock _ _ | .wirePrecharge _ _
  | .wireVcomh _ | .wireChargePump _ => none

/-- The state after an instruction that runs. -/
def ranTo (i : Instr) (s : State) : State := sendFrames (framesOf s i) (drawnBy s i)

theorem sendFrames_nil (s : State) : sendFrames [] s = s := by
  cases s; simp [sendFrames, emit]

/-- Every meaning in one equation: refused as the state says, refused for its operand, or run. -/
theorem exec_eq (i : Instr) (s : State) : exec i s =
    match requestRefusal s with
    | some r => .refused r
    | none =>
      match refusedOperand i with
      | some r => .refused (.rejected r)
      | none => .next (ranTo i s) := by
  have hmode : ∀ mode : U2, exec (.setAddrMode mode) s =
      match requestRefusal s with
      | some r => .refused r
      | none =>
        match refusedOperand (.setAddrMode mode) with
        | some r => .refused (.rejected r)
        | none => .next (ranTo (.setAddrMode mode) s) := by
    intro mode
    simp only [exec, execSetAddrMode, acceptUnless, refusedOperand]
    cases requestRefusal s
    · by_cases hm : mode = 3
      · simp only [hm, decide_true, if_true]
      · simp only [hm, decide_false, if_false]
        rfl
    · rfl
  have hbitmap : ∀ x y w h src, exec (.drawBitmap x y w h src) s =
      match requestRefusal s with
      | some r => .refused r
      | none =>
        match refusedOperand (.drawBitmap x y w h src) with
        | some r => .refused (.rejected r)
        | none => .next (ranTo (.drawBitmap x y w h src) s) := by
    intro x y w h src
    simp only [exec, execDrawBitmap, acceptUnless, refusedOperand]
    cases requestRefusal s
    · cases sourceShort w h src <;> simp [ranTo, drawnBy, framesOf, sendFrames_nil]
    · rfl
  cases i
  case setAddrMode mode => exact hmode mode
  case drawBitmap x y w h src => exact hbitmap x y w h src
  case clear => simp only [ranTo, framesOf, sendFrames_nil]; rfl
  case fill => simp only [ranTo, framesOf, sendFrames_nil]; rfl
  case setPixel => simp only [ranTo, framesOf, sendFrames_nil]; rfl
  case drawRect => simp only [ranTo, framesOf, sendFrames_nil]; rfl
  case fillRect => simp only [ranTo, framesOf, sendFrames_nil]; rfl
  case drawChar => simp only [ranTo, framesOf, sendFrames_nil]; rfl
  case drawString => simp only [ranTo, framesOf, sendFrames_nil]; rfl
  case drawNumber => simp only [ranTo, framesOf, sendFrames_nil]; rfl
  all_goals rfl

/-- An accepted instruction whose operands are not refused answers the next state. -/
theorem exec_accepting {i : Instr} {s : State} (h : s.accepting) (hi : refusedOperand i = none) :
    exec i s = .next (ranTo i s) := by
  rw [exec_eq, (requestRefusal_eq_none s).2 h, hi]

/-- What holds when exec answers a next state. -/
theorem exec_next {i : Instr} {s t : State} (h : exec i s = .next t) :
    s.accepting ∧ refusedOperand i = none ∧ t = ranTo i s := by
  rw [exec_eq] at h
  split at h
  · cases h
  · split at h
    · cases h
    · exact ⟨(requestRefusal_eq_none s).1 ‹_›, ‹_›, (Host.Outcome.next.inj h).symm⟩

variable (i : Instr) (s : State)

theorem drawnBy_inst : (drawnBy s i).inst = s.inst := by cases i <;> simp [drawnBy]
theorem drawnBy_phase : (drawnBy s i).phase = s.phase := by cases i <;> simp [drawnBy]
theorem drawnBy_pins : (drawnBy s i).pins = s.pins := by cases i <;> simp [drawnBy]
theorem drawnBy_trace : (drawnBy s i).trace = s.trace := by cases i <;> simp [drawnBy]
theorem drawnBy_port : (drawnBy s i).port = s.port := by cases i <;> simp [drawnBy]

theorem ranTo_inst : (ranTo i s).inst = s.inst := by simp [ranTo, drawnBy_inst]
theorem ranTo_phase : (ranTo i s).phase = s.phase := by simp [ranTo, drawnBy_phase]
theorem ranTo_port : (ranTo i s).port = s.port := by simp [ranTo, drawnBy_port]
theorem ranTo_trace : (ranTo i s).trace = s.trace ++ (framesOf s i).flatMap frameEvents := by
  simp [ranTo, drawnBy_trace]
theorem ranTo_pins : (ranTo i s).pins = ((framesOf s i).flatMap frameEvents).foldl Pins.apply s.pins := by
  simp [ranTo, drawnBy_pins]
theorem ranTo_fb : (ranTo i s).fb = (drawnBy s i).fb := by simp [ranTo]
theorem ranTo_free : (ranTo i s).free = (drawnBy s i).free := by simp [ranTo]

theorem ranTo_of_no_frames (h : framesOf s i = []) : ranTo i s = drawnBy s i := by
  rw [ranTo, h, sendFrames_nil]

variable {s}

/-- In Ready a byte of FB reads as the buffer says (20_memory R43). -/
theorem readFB_ready (h : s.phase = .ready) (a : Nat) : s.readFB a = s.fb.read a := by
  simp [State.readFB, h]

theorem readFB_ranTo (hs : s.accepting) (a : Nat) : (ranTo i s).readFB a = (drawnBy s i).fb.read a := by
  rw [readFB_ready (by rw [ranTo_phase, hs.2]), ranTo_fb]

theorem accepting_ranTo (hs : s.accepting) : (ranTo i s).accepting :=
  ⟨by rw [ranTo_inst]; exact hs.1, by rw [ranTo_phase]; exact hs.2⟩

variable (s)

/-- Every instruction keeps FB in canonical form. -/
theorem wf_drawnBy (hl : s.inst.H = 8 * s.inst.NP) (h : s.fb.wf) : Memory.wf (drawnBy s i).fb := by
  cases i
  case clear => exact wf_fillBytes h _ _
  case fill => exact wf_fillBytes h _ _
  case setPixel => exact wf_putPixel h _ _ _
  case drawRect => exact wf_plot h _ _ _
  case fillRect => exact wf_plot h _ _ _
  case drawBitmap => exact wf_plot h _ _ _
  case drawChar => exact wf_mergeGlyph hl h _ _ _
  case drawString => exact wf_drawText _ _ _ hl h
  case drawNumber => exact wf_drawText _ _ _ hl h
  all_goals exact h

/-- Every instruction keeps FB inside its bounds (20_memory R31). -/
theorem below_drawnBy (hl : s.inst.H = 8 * s.inst.NP) (h : s.fb.wf) (hb : s.fb.below s.inst.NB) :
    (drawnBy s i).fb.below s.inst.NB := by
  cases i
  case clear => exact below_fillBytes hb _
  case fill => exact below_fillBytes hb _
  case setPixel => exact below_putPixel hl hb _ _
  case drawRect => exact below_plot hl hb _ _
  case fillRect => exact below_plot hl hb _ _
  case drawBitmap => exact below_plot hl hb _ _
  case drawChar => exact below_mergeGlyph hl h hb _ _ _
  case drawString => exact below_drawText _ _ _ hl h hb
  case drawNumber => exact below_drawText _ _ _ hl h hb
  all_goals exact hb

end Sys2Proof.Machine
end

