-- ==== Sys2Proof/Laws/PerInstr.lean ====
section
/-! SUPPORT. Statements about every instruction as syntax, one lemma per constructor. -/

namespace Sys2Proof.Laws.RoundTrip

/-- The encoding of a well-formed instruction decodes to it. -/
def Statement (i : Instr) : Prop := i.wf = true → decodeItem (encode i) = .ok i

theorem wrcmd (b : Byte) : Statement (.wrcmd b) := fun _ => rfl

theorem wrdat (b : Byte) : Statement (.wrdat b) := fun _ => rfl

theorem setContrast (v : Byte) : Statement (.setContrast v) := fun _ => rfl

theorem setDispMode (sel : U2) : Statement (.setDispMode sel) := fun _ => rfl

theorem setDisplayOn (on : Bit) : Statement (.setDisplayOn on) := fun _ => rfl

theorem setColStart (v : Byte) : Statement (.setColStart v) := fun _ => rfl

theorem setAddrMode (mode : U2) : Statement (.setAddrMode mode) := by
  revert mode
  unfold Statement
  decide

theorem setColRange (start stop : Byte) : Statement (.setColRange start stop) := fun _ => rfl

theorem setPageRange (start stop : Byte) : Statement (.setPageRange start stop) := fun _ => rfl

theorem setPageStart (page : Byte) : Statement (.setPageStart page) := fun _ => rfl

theorem setStartLine (line : Byte) : Statement (.setStartLine line) := fun _ => rfl

theorem setSegRemap (bit : Bit) : Statement (.setSegRemap bit) := fun _ => rfl

theorem setMuxRatio (ratio : Byte) : Statement (.setMuxRatio ratio) := fun _ => rfl

theorem setComScan (bit : Bit) : Statement (.setComScan bit) := fun _ => rfl

theorem setOffset (offset : Byte) : Statement (.setOffset offset) := fun _ => rfl

theorem setComPins (seq remap : Bit) : Statement (.setComPins seq remap) := fun _ => rfl

theorem setClock (divide freq : Byte) : Statement (.setClock divide freq) := fun _ => rfl

theorem setPrecharge (phase1 phase2 : Byte) : Statement (.setPrecharge phase1 phase2) := fun _ => rfl

theorem setVcomh (sel : U2) : Statement (.setVcomh sel) := fun _ => rfl

theorem setChargePump (enable : Bit) : Statement (.setChargePump enable) := fun _ => rfl

theorem clear : Statement (.clear) := fun _ => rfl

theorem fill (b : Byte) : Statement (.fill b) := fun _ => rfl

theorem setPixel (x y : Int) (color : Bit) : Statement (.setPixel x y color) := fun _ => rfl

theorem drawRect (x y w h : Int) (color : Bit) : Statement (.drawRect x y w h color) := fun _ => rfl

theorem fillRect (x y w h : Int) (color : Bit) : Statement (.fillRect x y w h color) := fun _ => rfl

theorem drawChar (x y : Int) (ch : Byte) : Statement (.drawChar x y ch) := fun _ => rfl

theorem drawString (x y : Int) (t : List Byte) : Statement (.drawString x y t) := by
  intro hwf
  have h0 : (0 : Byte) ∉ t := by
    intro hm
    simp only [Instr.wf, Instr.illFormed, if_pos hm] at hwf
    cases hwf
  have ht : t.takeWhile (· ≠ 0) = t := by
    rw [List.takeWhile_eq_self_iff]
    intro b hb
    exact decide_eq_true fun e : b = 0 => h0 (e ▸ hb)
  have hdec : decodeItem (encode (.drawString x y t)) = (Instr.drawString x y (t.takeWhile (· ≠ 0))).checked := rfl
  rw [hdec, ht]
  simp only [Instr.checked, Instr.illFormed, if_neg h0]

theorem drawBitmap (x y w h : Int) (src : List Byte) : Statement (.drawBitmap x y w h src) := by
  intro hwf
  have hs : sourceShort w h src = false := by
    cases hs : sourceShort w h src with
    | false => rfl
    | true =>
      simp only [Instr.wf, Instr.illFormed, hs] at hwf
      cases hwf
  have hdec : decodeItem (encode (.drawBitmap x y w h src)) = (Instr.drawBitmap x y w h src).checked := rfl
  rw [hdec]
  simp only [Instr.checked, Instr.illFormed, hs]
  rfl

theorem drawNumber (x y : Int) (value : U16) (zeroFill : Bit) : Statement (.drawNumber x y value zeroFill) := fun _ => rfl

theorem flush : Statement (.flush) := fun _ => rfl

theorem wireContrast (v : Byte) : Statement (.wireContrast v) := fun _ => rfl

theorem wireDispMode (sel : BitVec 2) : Statement (.wireDispMode sel) := by
  revert sel
  unfold Statement
  decide

theorem wireDisplayOn (o : BitVec 1) : Statement (.wireDisplayOn o) := by
  revert o
  unfold Statement
  decide

theorem wireColStart (l h : BitVec 4) : Statement (.wireColStart l h) := by
  revert l h
  unfold Statement
  decide

theorem wireAddrMode (m : BitVec 2) : Statement (.wireAddrMode m) := by
  revert m
  unfold Statement
  decide

theorem wireColRange (start stop : Byte) : Statement (.wireColRange start stop) := fun _ => rfl

theorem wirePageRange (start stop : Byte) : Statement (.wirePageRange start stop) := fun _ => rfl

theorem wirePageStart (p : BitVec 4) : Statement (.wirePageStart p) := by
  revert p
  unfold Statement
  decide

theorem wireStartLine (l : BitVec 6) : Statement (.wireStartLine l) := by
  revert l
  unfold Statement
  decide

theorem wireSegRemap (b : BitVec 1) : Statement (.wireSegRemap b) := by
  revert b
  unfold Statement
  decide

theorem wireMuxRatio (r : Byte) : Statement (.wireMuxRatio r) := fun _ => rfl

theorem wireComScan (b : BitVec 1) : Statement (.wireComScan b) := by
  revert b
  unfold Statement
  decide

theorem wireOffset (o : Byte) : Statement (.wireOffset o) := fun _ => rfl

theorem wireComPins (r seq : BitVec 1) : Statement (.wireComPins r seq) := by
  revert r seq
  unfold Statement
  decide

theorem wireClock (f d : BitVec 4) : Statement (.wireClock f d) := by
  revert f d
  unfold Statement
  decide

theorem wirePrecharge (q p : BitVec 4) : Statement (.wirePrecharge q p) := by
  revert q p
  unfold Statement
  decide

theorem wireVcomh (c : BitVec 3) : Statement (.wireVcomh c) := by
  revert c
  unfold Statement
  decide

theorem wireChargePump (e : BitVec 1) : Statement (.wireChargePump e) := by
  revert e
  unfold Statement
  decide

end Sys2Proof.Laws.RoundTrip
end

