-- ==== Sys2Proof/Laws/Step.lean ====
section
/-! SUPPORT. What a step can do, said once. -/

namespace Sys2Proof.Machine

/-- When a step answers a next state, the instance is legal and the step is one of three: the reset sequence, nothing, or
the instruction presented. -/
theorem step_next {s t : State} (h : step s = .next t) : instLegal s.inst ∧
    ((s.phase = .powerOn ∧ s.port = [] ∧ t = resetSequence s)
      ∨ (s.phase = .ready ∧ s.port = [] ∧ t = s)
      ∨ (s.phase = .ready ∧ ∃ item rest i, s.port = item :: rest ∧ decodeItem item = .ok i
          ∧ exec i { s with port := rest } = .next t)) := by
  unfold step at h
  split at h
  · cases h
  · rename_i hl
    refine ⟨hl, ?_⟩
    split at h
    · exact .inl ⟨‹_›, ‹_›, (Host.Outcome.next.inj h).symm⟩
    · cases h
    · exact .inr (.inl ⟨‹_›, ‹_›, (Host.Outcome.next.inj h).symm⟩)
    · split at h
      · cases h
      · exact .inr (.inr ⟨‹_›, _, _, _, ‹_›, ‹_›, h⟩)

end Sys2Proof.Machine
end

