-- ==== Sys2Proof/Machine/TextForm.lean ====
section
/-! DEFINITION. The textual form of a request (30_encoding R61). -/

namespace Sys2Proof.Machine

/-- The mnemonic of an instruction, as spec/opcode_table.json spells it (30_encoding R57). -/
def mnemonic : Instr → String
  | .wrcmd _ => "WRCMD"
  | .wrdat _ => "WRDAT"
  | .setContrast _ => "SETCONTRAST"
  | .setDispMode _ => "SETDISPMODE"
  | .setDisplayOn _ => "SETDISPLAYON"
  | .setColStart _ => "SETCOLSTART"
  | .setAddrMode _ => "SETADDRMODE"
  | .setColRange _ _ => "SETCOLRANGE"
  | .setPageRange _ _ => "SETPAGERANGE"
  | .setPageStart _ => "SETPAGESTART"
  | .setStartLine _ => "SETSTARTLINE"
  | .setSegRemap _ => "SETSEGREMAP"
  | .setMuxRatio _ => "SETMUXRATIO"
  | .setComScan _ => "SETCOMSCAN"
  | .setOffset _ => "SETOFFSET"
  | .setComPins _ _ => "SETCOMPINS"
  | .setClock _ _ => "SETCLOCK"
  | .setPrecharge _ _ => "SETPRECHARGE"
  | .setVcomh _ => "SETVCOMH"
  | .setChargePump _ => "SETCHARGEPUMP"
  | .clear => "CLEAR"
  | .fill _ => "FILL"
  | .setPixel _ _ _ => "SETPIXEL"
  | .drawRect _ _ _ _ _ => "DRAWRECT"
  | .fillRect _ _ _ _ _ => "FILLRECT"
  | .drawChar _ _ _ => "DRAWCHAR"
  | .drawString _ _ _ => "DRAWSTRING"
  | .drawBitmap _ _ _ _ _ => "DRAWBITMAP"
  | .drawNumber _ _ _ _ => "DRAWNUMBER"
  | .flush => "FLUSH"
  | .wireContrast _ => "wire.CONTRAST"
  | .wireDispMode _ => "wire.DISPMODE"
  | .wireDisplayOn _ => "wire.DISPLAYON"
  | .wireColStart _ _ => "wire.COLSTART"
  | .wireAddrMode _ => "wire.ADDRMODE"
  | .wireColRange _ _ => "wire.COLRANGE"
  | .wirePageRange _ _ => "wire.PAGERANGE"
  | .wirePageStart _ => "wire.PAGESTART"
  | .wireStartLine _ => "wire.STARTLINE"
  | .wireSegRemap _ => "wire.SEGREMAP"
  | .wireMuxRatio _ => "wire.MUXRATIO"
  | .wireComScan _ => "wire.COMSCAN"
  | .wireOffset _ => "wire.OFFSET"
  | .wireComPins _ _ => "wire.COMPINS"
  | .wireClock _ _ => "wire.CLOCK"
  | .wirePrecharge _ _ => "wire.PRECHARGE"
  | .wireVcomh _ => "wire.VCOMH"
  | .wireChargePump _ => "wire.CHARGEPUMP"

/-- A number operand, in decimal as in the examples of 30_encoding R61; R61 fixes no base (DESIGN CHOICE, log 10). -/
def bitsText {n : Nat} (v : BitVec n) : String := toString v.toNat

/-- A text operand: a quoted string (30_encoding R61). How the quote character (code 34) or an unprintable code is written
inside it the spec does not say; each code is the Unicode character of that number, with no escape (DESIGN CHOICE,
log 10). -/
def quotedText (t : List Byte) : String :=
  "\"" ++ String.ofList (t.map fun b => Char.ofNat b.toNat) ++ "\""

/-- A byte list operand: in brackets (30_encoding R61), its bytes in decimal (DESIGN CHOICE, log 10). -/
def bytesText (s : List Byte) : String := "[" ++ ", ".intercalate (s.map bitsText) ++ "]"

/-- The operands of an instruction in the order of 30_encoding R57, those of a `wire.*` row as its row lists them: R61
speaks of requests alone (DESIGN CHOICE, log 10). -/
def operandTexts : Instr → List String
  | .wrcmd b => [bitsText b]
  | .wrdat b => [bitsText b]
  | .setContrast v => [bitsText v]
  | .setDispMode sel => [bitsText sel]
  | .setDisplayOn on => [bitsText on]
  | .setColStart v => [bitsText v]
  | .setAddrMode mode => [bitsText mode]
  | .setColRange start stop => [bitsText start, bitsText stop]
  | .setPageRange start stop => [bitsText start, bitsText stop]
  | .setPageStart page => [bitsText page]
  | .setStartLine line => [bitsText line]
  | .setSegRemap bit => [bitsText bit]
  | .setMuxRatio ratio => [bitsText ratio]
  | .setComScan bit => [bitsText bit]
  | .setOffset offset => [bitsText offset]
  | .setComPins seq remap => [bitsText seq, bitsText remap]
  | .setClock divide freq => [bitsText divide, bitsText freq]
  | .setPrecharge phase1 phase2 => [bitsText phase1, bitsText phase2]
  | .setVcomh sel => [bitsText sel]
  | .setChargePump enable => [bitsText enable]
  | .clear => []
  | .fill b => [bitsText b]
  | .setPixel x y color => [toString x, toString y, bitsText color]
  | .drawRect x y w h color => [toString x, toString y, toString w, toString h, bitsText color]
  | .fillRect x y w h color => [toString x, toString y, toString w, toString h, bitsText color]
  | .drawChar x y ch => [toString x, toString y, bitsText ch]
  | .drawString x y t => [toString x, toString y, quotedText t]
  | .drawBitmap x y w h src => [toString x, toString y, toString w, toString h, bytesText src]
  | .drawNumber x y value zeroFill => [toString x, toString y, bitsText value, bitsText zeroFill]
  | .flush => []
  | .wireContrast v => [bitsText v]
  | .wireDispMode sel => [bitsText sel]
  | .wireDisplayOn o => [bitsText o]
  | .wireColStart l h => [bitsText l, bitsText h]
  | .wireAddrMode m => [bitsText m]
  | .wireColRange start stop => [bitsText start, bitsText stop]
  | .wirePageRange start stop => [bitsText start, bitsText stop]
  | .wirePageStart p => [bitsText p]
  | .wireStartLine l => [bitsText l]
  | .wireSegRemap b => [bitsText b]
  | .wireMuxRatio r => [bitsText r]
  | .wireComScan b => [bitsText b]
  | .wireOffset o => [bitsText o]
  | .wireComPins r seq => [bitsText r, bitsText seq]
  | .wireClock f d => [bitsText f, bitsText d]
  | .wirePrecharge q p => [bitsText q, bitsText p]
  | .wireVcomh c => [bitsText c]
  | .wireChargePump e => [bitsText e]

/-- The textual form: the mnemonic followed by its operands, comma separated (30_encoding R61). -/
def instrText (i : Instr) : String :=
  match operandTexts i with
  | [] => mnemonic i
  | ops => mnemonic i ++ " " ++ ", ".intercalate ops

end Sys2Proof.Machine
end

