-- ==== Sys2Proof/Tests/Slice0.lean ====
section
/-! SUPPORT. Tests. Every expected value comes from spec/: the vectors of 95_test_vectors (section named at each group),
the table of 30_encoding R57 or the patterns of spec/opcode_table.json. -/

set_option maxRecDepth 20000

namespace Sys2Proof.Tests

open Sys2Proof.Machine

/-- The glyph fixture of 95_test_vectors: `TG(ch, col) = (7*ch + 29*col + 3) mod 256`. -/
def tg : List Byte := (List.range 480).map fun k => BitVec.ofNat 8 (7 * (32 + k / 5) + 29 * (k % 5) + 3)

/-- A W by H instance with the fixture. -/
def inst (W H : Nat) : Params := ⟨W, H, 10, 60, .five, tg⟩

/-- A Ready state with the pins of 70_reset R152, an empty trace and the buffer given. -/
def ready (p : Params) (fb : Memory := []) : State :=
  ⟨p, .ready, ⟨.level true, .level false, .level true, .level false, .level true⟩, fb, [], [], 0⟩

/-- The buffer of `n` bytes `b`. -/
def allBytes (n : Nat) (b : Byte) : Memory := (List.range n).map fun i => (i, b)

/-- The state after an instruction. -/
def after (i : Instr) (s : State) : Option State :=
  match exec i s with
  | .next t => some t
  | .fault _ => none
  | .refused _ => none

/-- FB after an instruction, as (index, byte) of the non-zero bytes. -/
def fbAfter (i : Instr) (s : State) : Option (List (Nat × Nat)) :=
  (after i s).map fun t => t.fb.map fun c => (c.1, c.2.toNat)

/-- The frames an instruction sends on the 16 by 16 instance, as (DC, byte). -/
def sent (i : Instr) (fb : Memory := []) : Option (List (Nat × Nat)) :=
  (after i (ready (inst 16 16) fb)).map fun t => (frames t.trace).map fun f => (f.mode.level.toNat, f.byte.toNat)

/-- The refusal of an instruction. -/
def refusal (i : Instr) (s : State) : Option Refusal :=
  match exec i s with
  | .next _ => none
  | .fault _ => none
  | .refused r => some r

/-! ### WellFormed: one ill-formed term for each check -/

theorem test_wf_addrmode : (Instr.setAddrMode 3).wf = false := by decide
theorem test_wf_string : (Instr.drawString 0 0 [72, 0, 105]).wf = false := by decide
theorem test_wf_bitmap : (Instr.drawBitmap 0 0 2 8 [0xFF]).wf = false := by decide
theorem test_wf_wire_addrmode : (Instr.wireAddrMode 3).wf = false := by decide
theorem test_wf_wire_vcomh : (Instr.wireVcomh 1).wf = false := by decide

/-! ### Decoding: request codes from the table of 30_encoding R57, wire words from the patterns of opcode_table.json -/

theorem test_decode_serial : decodeItem (.request 0x01 [.u8 0xAF]) = .ok (.wrcmd 0xAF)
    ∧ decodeItem (.request 0x02 [.u8 0x81]) = .ok (.wrdat 0x81) := by decide
theorem test_decode_setters_a : decodeItem (.request 0x10 [.u8 210]) = .ok (.setContrast 210)
    ∧ decodeItem (.request 0x11 [.u2 3]) = .ok (.setDispMode 3)
    ∧ decodeItem (.request 0x12 [.bit 1]) = .ok (.setDisplayOn 1)
    ∧ decodeItem (.request 0x13 [.u8 4]) = .ok (.setColStart 4)
    ∧ decodeItem (.request 0x14 [.u2 2]) = .ok (.setAddrMode 2)
    ∧ decodeItem (.request 0x15 [.u8 200, .u8 3]) = .ok (.setColRange 200 3)
    ∧ decodeItem (.request 0x16 [.u8 2, .u8 5]) = .ok (.setPageRange 2 5)
    ∧ decodeItem (.request 0x17 [.u8 1]) = .ok (.setPageStart 1)
    ∧ decodeItem (.request 0x18 [.u8 32]) = .ok (.setStartLine 32) := by decide
theorem test_decode_setters_b : decodeItem (.request 0x19 [.bit 1]) = .ok (.setSegRemap 1)
    ∧ decodeItem (.request 0x1A [.u8 63]) = .ok (.setMuxRatio 63)
    ∧ decodeItem (.request 0x1B [.bit 1]) = .ok (.setComScan 1)
    ∧ decodeItem (.request 0x1C [.u8 32]) = .ok (.setOffset 32)
    ∧ decodeItem (.request 0x1D [.bit 1, .bit 0]) = .ok (.setComPins 1 0)
    ∧ decodeItem (.request 0x1E [.u8 0, .u8 8]) = .ok (.setClock 0 8)
    ∧ decodeItem (.request 0x1F [.u8 1, .u8 15]) = .ok (.setPrecharge 1 15)
    ∧ decodeItem (.request 0x20 [.u2 3]) = .ok (.setVcomh 3)
    ∧ decodeItem (.request 0x21 [.bit 1]) = .ok (.setChargePump 1) := by decide
theorem test_decode_drawing : decodeItem (.request 0x40 []) = .ok .clear
    ∧ decodeItem (.request 0x41 [.u8 0xFF]) = .ok (.fill 0xFF)
    ∧ decodeItem (.request 0x42 [.int 5, .int 13, .bit 1]) = .ok (.setPixel 5 13 1)
    ∧ decodeItem (.request 0x43 [.int 2, .int 3, .int 5, .int 4, .bit 1]) = .ok (.drawRect 2 3 5 4 1)
    ∧ decodeItem (.request 0x44 [.int (-2), .int (-2), .int 4, .int 4, .bit 1]) = .ok (.fillRect (-2) (-2) 4 4 1)
    ∧ decodeItem (.request 0x45 [.int 1, .int 3, .u8 65]) = .ok (.drawChar 1 3 65)
    ∧ decodeItem (.request 0x46 [.int 4, .int 10, .text [72, 105, 0]]) = .ok (.drawString 4 10 [72, 105])
    ∧ decodeItem (.request 0x47 [.int 4, .int 0, .int 2, .int 8, .bytes [0x81, 0xF0]])
      = .ok (.drawBitmap 4 0 2 8 [0x81, 0xF0])
    ∧ decodeItem (.request 0x48 [.int 0, .int 0, .u16 5, .bit 0]) = .ok (.drawNumber 0 0 5 0)
    ∧ decodeItem (.request 0x49 []) = .ok .flush := by decide
theorem test_decode_wire_a : decodeTableWord 16 0b1000000111010010 = some (.wireContrast 0xD2)
    ∧ decodeTableWord 8 0b10100110 = some (.wireDispMode 2)
    ∧ decodeTableWord 8 0b10101111 = some (.wireDisplayOn 1)
    ∧ decodeTableWord 16 0b0000010100011010 = some (.wireColStart 5 0xA)
    ∧ decodeTableWord 16 0b0010000000000010 = some (.wireAddrMode 2)
    ∧ decodeTableWord 24 0b001000011100100000000011 = some (.wireColRange 200 3)
    ∧ decodeTableWord 24 0b001000100000001000000101 = some (.wirePageRange 2 5)
    ∧ decodeTableWord 8 0b10110011 = some (.wirePageStart 3)
    ∧ decodeTableWord 8 0b01100000 = some (.wireStartLine 32) := by decide
theorem test_decode_wire_b : decodeTableWord 8 0b10100001 = some (.wireSegRemap 1)
    ∧ decodeTableWord 16 0b1010100000111111 = some (.wireMuxRatio 63)
    ∧ decodeTableWord 8 0b11001000 = some (.wireComScan 1)
    ∧ decodeTableWord 16 0b1101001100100000 = some (.wireOffset 32)
    ∧ decodeTableWord 16 0b1101101000010010 = some (.wireComPins 0 1)
    ∧ decodeTableWord 16 0b1101010110000000 = some (.wireClock 8 0)
    ∧ decodeTableWord 16 0b1101100111110001 = some (.wirePrecharge 15 1)
    ∧ decodeTableWord 16 0b1101101101000000 = some (.wireVcomh 4)
    ∧ decodeTableWord 16 0b1000110100010100 = some (.wireChargePump 1) := by decide

/-- 95 section 2.11. -/
theorem test_decode_reserved : decodeItem (.request 0x00 []) = .error (.reservedCode 0x00)
    ∧ decodeItem (.request 0x03 []) = .error (.reservedCode 0x03)
    ∧ decodeItem (.request 0x22 []) = .error (.reservedCode 0x22)
    ∧ decodeItem (.request 0x4A []) = .error (.reservedCode 0x4A)
    ∧ decodeItem (.request 0xFF []) = .error (.reservedCode 0xFF)
    ∧ decodeItem (.request 0x14 [.u2 3]) = .error .reservedOperand
    ∧ decodeItem (.request 0x47 [.int 0, .int 0, .int 2, .int 8, .bytes [0xFF]]) = .error .shortSource
    ∧ decodeItem (.request 0x42 [.u8 1]) = .error (.malformedOperands 0x42) := by decide
theorem test_decode_wire_rejected : decodeItem (.wire [0x20, 0x03]) = .error .unknownCommand
    ∧ decodeItem (.wire [0xDB, 0x10]) = .error .unknownCommand
    ∧ decodeItem (.wire [0xFF]) = .error .unknownCommand
    ∧ decodeItem (.wire [0x81]) = .error .incompleteCommand
    ∧ decodeItem (.wire [0xA6, 0xAF]) = .error .trailingBytes := by decide

/-! ### Converter and bounds (95 section 2.1) -/

theorem test_convert : convert 128 5 13 = ⟨1, 133, 5, 0x20⟩ ∧ convert 128 127 63 = ⟨7, 1023, 7, 0x80⟩
    ∧ convert 128 0 8 = ⟨1, 128, 0, 0x01⟩ ∧ convert 16 3 9 = ⟨1, 19, 1, 0x02⟩ := by decide
theorem test_convert_back : convertBack 128 133 5 = (5, 13) := by decide
theorem test_in_range : inRange (inst 128 64) 127 63 = true ∧ inRange (inst 128 64) 128 0 = false
    ∧ inRange (inst 128 64) 0 64 = false ∧ inRange (inst 128 64) (-1) 0 = false
    ∧ inRange (inst 128 64) 0 (-1) = false := by decide

/-! ### Serializer (95 section 2.2) -/

/-- The 27 events of `WRCMD 0xAF`. -/
theorem test_wrcmd_events : frameEvents ⟨.command, 0xAF⟩ =
    [.pin .cs false, .pin .dc false,
     .pin .dat true, .pin .clk true, .pin .clk false, .pin .dat false, .pin .clk true, .pin .clk false,
     .pin .dat true, .pin .clk true, .pin .clk false, .pin .dat false, .pin .clk true, .pin .clk false,
     .pin .dat true, .pin .clk true, .pin .clk false, .pin .dat true, .pin .clk true, .pin .clk false,
     .pin .dat true, .pin .clk true, .pin .clk false, .pin .dat true, .pin .clk true, .pin .clk false,
     .pin .cs true] := by decide
theorem test_wrcmd : sent (.wrcmd 0xAF) = some [(0, 0xAF)] := by rfl
theorem test_wrdat : sent (.wrdat 0x81) = some [(1, 0x81)] := by rfl
theorem test_wrdat_pins : (after (.wrdat 0x80) (ready (inst 16 16))).map (fun t => t.pins) =
    some ⟨.level true, .level true, .level true, .level false, .level false⟩ := by rfl

/-! ### Setters (95 section 2.4) -/

theorem test_setContrast : sent (.setContrast 210) = some [(0, 0x81), (0, 0xD2)] := by rfl
theorem test_setDispMode : sent (.setDispMode 3) = some [(0, 0xA7)] := by rfl
theorem test_setDisplayOn : sent (.setDisplayOn 1) = some [(0, 0xAF)] := by rfl
theorem test_setColStart : sent (.setColStart 0xA5) = some [(0, 0x05), (0, 0x1A)] := by rfl
theorem test_setAddrMode : sent (.setAddrMode 1) = some [(0, 0x20), (0, 0x01)] := by rfl
theorem test_setAddrMode_reserved :
    refusal (.setAddrMode 3) (ready (inst 16 16)) = some (.rejected .reservedOperand) := by rfl
theorem test_setColRange : sent (.setColRange 200 3) = some [(0, 0x21), (0, 0xC8), (0, 0x03)] := by rfl
theorem test_setPageRange : sent (.setPageRange 2 5) = some [(0, 0x22), (0, 0x02), (0, 0x05)] := by rfl
theorem test_setPageStart : sent (.setPageStart 3) = some [(0, 0xB3)] := by rfl
theorem test_setPageStart_wide : sent (.setPageStart 0x4F) = some [(0, 0xFF)] := by rfl
theorem test_setStartLine : sent (.setStartLine 63) = some [(0, 0x7F)] := by rfl
theorem test_setStartLine_wide : sent (.setStartLine 0x80) = some [(0, 0xC0)] := by rfl
theorem test_setSegRemap : sent (.setSegRemap 1) = some [(0, 0xA1)] := by rfl
theorem test_setMuxRatio : sent (.setMuxRatio 31) = some [(0, 0xA8), (0, 0x1F)] := by rfl
theorem test_setComScan : sent (.setComScan 1) = some [(0, 0xC8)] := by rfl
theorem test_setOffset : sent (.setOffset 32) = some [(0, 0xD3), (0, 0x20)] := by rfl
theorem test_setComPins : sent (.setComPins 1 0) = some [(0, 0xDA), (0, 0x12)] := by rfl
theorem test_setComPins_remap : sent (.setComPins 0 1) = some [(0, 0xDA), (0, 0x22)] := by rfl
theorem test_setClock : sent (.setClock 1 15) = some [(0, 0xD5), (0, 0xF1)] := by rfl
theorem test_setClock_wide : sent (.setClock 0x12 0x13) = some [(0, 0xD5), (0, 0x32)] := by rfl
theorem test_setPrecharge : sent (.setPrecharge 1 15) = some [(0, 0xD9), (0, 0xF1)] := by rfl
theorem test_setVcomh : sent (.setVcomh 2) = some [(0, 0xDB), (0, 0x30)] := by rfl
theorem test_setVcomh_high : sent (.setVcomh 3) = some [(0, 0xDB), (0, 0x40)] := by rfl
theorem test_setChargePump : sent (.setChargePump 1) = some [(0, 0x8D), (0, 0x14)] := by rfl

/-! ### Wire rows (patterns of opcode_table.json) -/

theorem test_wireContrast : sent (.wireContrast 0xD2) = some [(0, 0x81), (0, 0xD2)] := by rfl
theorem test_wireDispMode : sent (.wireDispMode 2) = some [(0, 0xA6)] := by rfl
theorem test_wireDisplayOn : sent (.wireDisplayOn 0) = some [(0, 0xAE)] := by rfl
theorem test_wireColStart : sent (.wireColStart 0xF 7) = some [(0, 0x0F), (0, 0x17)] := by rfl
theorem test_wireAddrMode : sent (.wireAddrMode 2) = some [(0, 0x20), (0, 0x02)] := by rfl
theorem test_wireColRange : sent (.wireColRange 0 127) = some [(0, 0x21), (0, 0), (0, 0x7F)] := by rfl
theorem test_wirePageRange : sent (.wirePageRange 0 7) = some [(0, 0x22), (0, 0), (0, 7)] := by rfl
theorem test_wirePageStart : sent (.wirePageStart 15) = some [(0, 0xBF)] := by rfl
theorem test_wireStartLine : sent (.wireStartLine 32) = some [(0, 0x60)] := by rfl
theorem test_wireSegRemap : sent (.wireSegRemap 1) = some [(0, 0xA1)] := by rfl
theorem test_wireMuxRatio : sent (.wireMuxRatio 63) = some [(0, 0xA8), (0, 0x3F)] := by rfl
theorem test_wireComScan : sent (.wireComScan 1) = some [(0, 0xC8)] := by rfl
theorem test_wireOffset : sent (.wireOffset 32) = some [(0, 0xD3), (0, 0x20)] := by rfl
theorem test_wireComPins : sent (.wireComPins 0 1) = some [(0, 0xDA), (0, 0x12)] := by rfl
theorem test_wireClock : sent (.wireClock 15 1) = some [(0, 0xD5), (0, 0xF1)] := by rfl
theorem test_wirePrecharge : sent (.wirePrecharge 15 1) = some [(0, 0xD9), (0, 0xF1)] := by rfl
theorem test_wireVcomh : sent (.wireVcomh 3) = some [(0, 0xDB), (0, 0x30)] := by rfl
theorem test_wireChargePump : sent (.wireChargePump 0) = some [(0, 0x8D), (0, 0x10)] := by rfl

/-! ### Whole-buffer and pixel operations (95 section 2.5) -/

theorem test_fill : (after (.fill 0x0F) (ready (inst 16 16))).map (fun t => t.fb) = some (allBytes 32 0x0F) := by
  rfl
theorem test_clear : fbAfter .clear (ready (inst 16 16) (allBytes 32 0x0F)) = some [] := by rfl
theorem test_setPixel : fbAfter (.setPixel 5 13 1) (ready (inst 128 64) [(133, 0x5F)]) = some [(133, 0x7F)] := by
  rfl
theorem test_setPixel_clear : fbAfter (.setPixel 5 14 0) (ready (inst 128 64) [(133, 0x5F)]) = some [(133, 0x1F)] := by
  rfl
theorem test_setPixel_out : fbAfter (.setPixel 128 0 1) (ready (inst 128 64)) = some []
    ∧ fbAfter (.setPixel 0 64 1) (ready (inst 128 64)) = some []
    ∧ fbAfter (.setPixel (-1) 0 1) (ready (inst 128 64)) = some [] := by refine ⟨?_, ?_, ?_⟩ <;> rfl

/-! ### Rectangles (95 section 2.6) -/

theorem test_drawRect : fbAfter (.drawRect 13 6 5 4 1) (ready (inst 16 16)) =
    some [(13, 0xC0), (14, 0x40), (15, 0x40), (29, 0x03), (30, 0x02), (31, 0x02)] := by rfl
theorem test_drawRect_hollow : fbAfter (.drawRect 2 3 5 4 1) (ready (inst 16 16)) =
    some [(2, 0x78), (3, 0x48), (4, 0x48), (5, 0x48), (6, 0x78)] := by rfl
theorem test_fillRect : fbAfter (.fillRect (-2) (-2) 4 4 1) (ready (inst 16 16)) = some [(0, 3), (1, 3)] := by
  rfl
theorem test_fillRect_empty : fbAfter (.fillRect 3 3 (-1) 5 1) (ready (inst 16 16)) = some [] := by rfl

/-! ### Glyphs and strings (95 section 2.7) -/

theorem test_drawChar_spill : fbAfter (.drawChar 1 3 65) (ready (inst 16 16)) =
    some [(1, 0x50), (2, 0x38), (3, 0x20), (4, 0x08), (5, 0xF0), (17, 6), (18, 7), (20, 1), (21, 1)] := by
  rfl
theorem test_drawChar_edges : fbAfter (.drawChar 13 3 65) (ready (inst 16 16)) =
      some [(13, 0x50), (14, 0x38), (15, 0x20), (29, 6), (30, 7)]
    ∧ fbAfter (.drawChar (-2) 0 65) (ready (inst 16 16)) = some [(0, 0x04), (1, 0x21), (2, 0x3E)]
    ∧ fbAfter (.drawChar 1 11 65) (ready (inst 16 16)) =
      some [(17, 0x50), (18, 0x38), (19, 0x20), (20, 0x08), (21, 0xF0)]
    ∧ fbAfter (.drawChar 0 16 65) (ready (inst 16 16)) = some []
    ∧ fbAfter (.drawChar 0 (-1) 65) (ready (inst 16 16)) = some []
    ∧ fbAfter (.drawChar (-5) 0 65) (ready (inst 16 16)) = some [] := by refine ⟨?_, ?_, ?_, ?_, ?_, ?_⟩ <;> rfl
theorem test_drawString : fbAfter (.drawString 0 0 [65, 66, 67]) (ready (inst 16 16)) =
    some [(0, 0xCA), (1, 0xE7), (2, 0x04), (3, 0x21), (4, 0x3E), (6, 0xD1), (7, 0xEE), (8, 0x0B), (9, 0x28),
      (10, 0x45), (12, 0xD8), (13, 0xF5), (14, 0x12), (15, 0x2F)] := by rfl
/-- A character without an entry completes and draws the arbitrary bytes 0..4 (93 I7). -/
theorem test_drawChar_arbitrary :
    (after (.drawChar 0 0 200) (ready (inst 16 16))).map (fun t => t.free) = some 5 := by rfl

/-! ### Bitmaps (95 section 2.8) -/

theorem test_drawBitmap : fbAfter (.drawBitmap 1 2 3 10 [0xFF, 0x80, 0x01, 0xC0, 0x40, 0x80]) (ready (inst 16 16)) =
    some [(1, 0xFC), (2, 0x04), (17, 0x0F), (18, 0x08), (19, 0x06)] := by rfl
theorem test_drawBitmap_short :
    refusal (.drawBitmap 0 0 2 8 [0xFF]) (ready (inst 16 16)) = some (.rejected .shortSource) := by rfl

/-! ### Numbers (95 section 2.9) -/

theorem test_digits : digits 0 false = [0] ∧ digits 0 true = [0, 0, 0, 0, 0] ∧ digits 5 true = [0, 0, 0, 0, 5]
    ∧ digits 10 false = [1, 0] ∧ digits 100 false = [1, 0, 0] ∧ digits 1001 false = [1, 0, 0, 1]
    ∧ digits 10005 false = [1, 0, 0, 0, 5] ∧ digits 65535 false = [6, 5, 5, 3, 5] := by decide
theorem test_drawNumber : fbAfter (.drawNumber 2 0 120 0) (ready (inst 32 8)) =
    some [(2, 0x5A), (3, 0x77), (4, 0x94), (5, 0xB1), (6, 0xCE), (8, 0x61), (9, 0x7E), (10, 0x9B), (11, 0xB8),
      (12, 0xD5), (14, 0x53), (15, 0x70), (16, 0x8D), (17, 0xAA), (18, 0xC7)] := by rfl

/-! ### Flush (95 section 2.10) -/

theorem test_flush : sent .flush [(0, 0x01), (19, 0x02), (31, 0x80)] =
    some ([(0, 0xB0), (0, 0x00), (0, 0x10), (1, 0x01)] ++ List.replicate 15 (1, 0)
      ++ [(0, 0xB1), (0, 0x00), (0, 0x10), (1, 0), (1, 0), (1, 0), (1, 2)] ++ List.replicate 11 (1, 0)
      ++ [(1, 0x80)]) := by rfl

/-! ### Reset sequence and steps (95 section 2.3, 2.11; 30_encoding R61) -/

/-- The 26 bytes of 40_serial R75. -/
theorem test_configBytes : configBytes.map BitVec.toNat =
    [0xAE, 0x00, 0x10, 0x40, 0x20, 0x02, 0x81, 0xD2, 0xA0, 0xC0, 0xA8, 0x3F, 0xD3, 0x00, 0xD5, 0x80, 0xD9, 0xF1,
     0xDA, 0x12, 0xDB, 0x00, 0x8D, 0x14, 0xA6, 0xAF] := by decide
theorem test_reset_trace : (resetSequence State.reset).trace.length = 709
    ∧ (resetSequence State.reset).trace.take 10 =
      [.pin .dc false, .pin .cs false, .pin .res true, .delay 10, .pin .res false, .delay 60, .pin .res true,
       .pin .cs false, .pin .dc false, .pin .dat true] := by refine ⟨?_, ?_⟩ <;> rfl
theorem test_reset_pins : (resetSequence State.reset).pins =
    ⟨.level true, .level false, .level true, .level false, .level true⟩ := by rfl
theorem test_step_refuses : (match step { State.reset with port := [.request 0x49 []] } with
    | .refused r => some r
    | .next _ => none
    | .fault _ => none) = some .requestInPowerOn := by rfl
theorem test_withFetchWord : (match step (State.reset.withFetchWord 8 0x02) with
    | .next t => some ((t.trace.drop 709) == frameEvents ⟨.data, 0⟩, t.port)
    | .fault _ => none
    | .refused _ => none) = some (true, []) := by rfl
theorem test_instrText : instrText (.setPixel 5 13 1) = "SETPIXEL 5, 13, 1"
    ∧ instrText (.setContrast 210) = "SETCONTRAST 210" := by refine ⟨?_, ?_⟩ <;> rfl

/-! ### Witnesses: states and operands that meet the hypotheses of the statements, each clause at a boundary value -/

open Sys2Proof.Spec

/-- The 16 by 16 instance, Ready, one pixel on. -/
def base : State := ready (inst 16 16) [(31, 0x80)]

/-- The 16 by 16 instance just after block reset. -/
def powerOn : State := { State.reset with inst := inst 16 16 }

/-- The 16 by 16 instance just after the reset sequence. -/
def started : State := resetSequence powerOn

/-- For every statement whose hypotheses are `s.accepting`, `s.fb.wf` and `s.fbInside` alone. -/
theorem witness_accepting : base.accepting ∧ base.fb.wf ∧ base.fbInside := by
  refine ⟨⟨rfl, rfl⟩, ?_, ?_⟩ <;> decide
theorem witness_DecodeOfEncodeIsTheInstruction : (Instr.setAddrMode 2).wf = true
    ∧ (Instr.drawString 0 0 [32, 127]).wf = true ∧ (Instr.drawBitmap 0 0 1 9 [1, 2]).wf = true
    ∧ (Instr.wireAddrMode 2).wf = true ∧ (Instr.wireVcomh 4).wf = true := by decide
theorem witness_DecodedIsWellFormed : decodeItem (.request 0x14 [.u2 2]) = .ok (.setAddrMode 2)
    ∧ decodeItem (.wire [0xDB, 0x40]) = .ok (.wireVcomh 4) := by decide
theorem witness_RequestTableDecodes : (2 : U2) ≠ 3 ∧ (0 : Byte) ∉ [1#8, 255#8]
    ∧ (((9 : Int).toNat + 7) / 8 * (1 : Int).toNat ≤ [1#8, 2#8].length) := by decide
theorem witness_RequestDecodesOnlyFromItsEncoding :
    decodeItem (.request 0x46 [.int 4, .int 10, .text [72, 0, 105]]) = .ok (.drawString 4 10 [72]) := by decide
theorem witness_WireDecodesOnlyFromItsBytes : decodeItem (.wire [0x22, 0x00, 0x07]) = .ok (.wirePageRange 0 7) := by
  decide
theorem witness_ReservedRequestsRefused : (0x00#8).toNat ∉ requestCodes ∧ (0xFF#8).toNat ∉ requestCodes
    ∧ { base with port := [.request 0xFF []] }.port = .request 0xFF [] :: []
    ∧ { base with port := [.request 0xFF []] }.accepting
    ∧ { base with port := [.request 0x14 [.u2 3]] }.port = .request 0x14 [.u2 3] :: [] := by
  refine ⟨?_, ?_, rfl, ⟨rfl, rfl⟩, rfl⟩ <;> decide
theorem witness_FirstByteDecidesCommandLength : (Instr.wireColRange 0 127).wf = true
    ∧ (Instr.wireColRange 0 127).wireBytes ≠ [] ∧ (Instr.wireColStart 15 15).wireBytes ≠ [] := by decide
theorem witness_ConverterIsABijection : 0 < (inst 16 16).W ∧ (inst 16 16).H = 8 * (inst 16 16).NP
    ∧ 15 < (inst 16 16).W ∧ 15 < (inst 16 16).H ∧ 31 < (inst 16 16).NB := by decide
theorem witness_ResetSequenceLeavesReady : instLegal powerOn.inst ∧ powerOn.phase = .powerOn ∧ powerOn.port = []
    ∧ powerOn.trace = [] ∧ powerOn.fb.wf := ⟨rfl, rfl, rfl, rfl, by decide⟩
theorem witness_reset_instance : instLegal State.reset.inst := by rfl
theorem witness_RequestInPowerOnRefused :
    { powerOn with port := [.request 0x49 []] }.port ≠ [] ∧ instLegal powerOn.inst := ⟨by decide, rfl⟩
theorem witness_UnbuiltInstanceRefused : (⟨16, 16, 10, 60, .four, tg⟩ : Params).wiring = .four
    ∧ (inst 0 16).W = 0 ∧ (inst 12 16).W % 8 ≠ 0 ∧ (inst 16 0).H = 0 ∧ (inst 16 12).H % 8 ≠ 0
    ∧ (inst 16 12).wiring = .five := by decide
theorem witness_InstanceLimitsRefused : 16 < (inst 16 136).H / 8 ∧ (inst 16 136).H % 8 = 0
    ∧ (inst 16 128).H / 8 ≤ 16 ∧ (⟨16, 128, 9, 60, .five, tg⟩ : Params).tPre < 10
    ∧ (⟨16, 128, 10, 59, .five, tg⟩ : Params).tLow < 60 ∧ (⟨16, 128, 10, 60, .five, []⟩ : Params).glyph.length ≠ 480
    ∧ (inst 16 128).glyph.length = 480 := by
  refine ⟨?_, ?_, ?_, ?_, ?_, ?_, rfl⟩ <;> decide
theorem witness_StepRunsTheDecodedInstruction : { base with port := [.request 0x49 []] }.accepting
    ∧ { base with port := [.request 0x49 []] }.port = .request 0x49 [] :: []
    ∧ decodeItem (.request 0x49 []) = .ok .flush ∧ decodeItem (.request 0x4A []) = .error (.reservedCode 0x4A)
    ∧ base.port = [] := ⟨⟨rfl, rfl⟩, rfl, rfl, rfl, rfl⟩
theorem witness_SettersAreWrcmdSequences : isSetter (.setAddrMode 2) = true ∧ Instr.setAddrMode 2 ≠ .setAddrMode 3
    ∧ isSetter (.setColRange 0 255) = true := by decide
theorem witness_WireRowsAreWrcmdSequences : (Instr.wireStartLine 63).wireBytes ≠ [] := by decide
theorem witness_SetPixelChangesOnePixel : onBuffer base 15 15 ∧ onBuffer base 0 0 ∧ ¬ onBuffer base 16 0
    ∧ ¬ onBuffer base 0 16 ∧ ¬ onBuffer base (-1) 0 ∧ ¬ onBuffer base 0 (-1) := by
  unfold onBuffer; decide
theorem witness_SetThenClearPixel : onBuffer base 15 15 ∧ pix base 15 15 = true ∧ pix base 15 14 = false := by
  unfold onBuffer; decide
theorem witness_DrawRectForcesThePerimeter : onBuffer base 15 15 ∧ ((15 : Int) ≤ 15 ∧ (15 : Int) < 15 + 1) := by
  unfold onBuffer; decide
theorem witness_DrawCharMergesTheGlyph : 32 ≤ (32#8).toNat ∧ (127#8).toNat ≤ 127 ∧ onBuffer base (11 + 4) 15
    ∧ ∀ col : Nat, col < 5 → onBuffer base (11 + col) 15 → 0 ≠ (15 : Int).toNat / 8 * 16 + (11 + (col : Int)).toNat := by
  unfold onBuffer; decide
theorem witness_GlyphOutsideDrawsNothing : (-1 : Int) < 0 ∧ (base.inst.H : Int) ≤ 16 ∧ (base.inst.W : Int) ≤ 16
    ∧ (-5 : Int) ≤ -5 := by decide
theorem witness_TextChangesOnlyItsColumns : (∃ u, exec (.drawString 0 0 [65]) base = .next u)
    ∧ (∃ u, exec (.drawNumber 0 0 65535 0) base = .next u)
    ∧ ∀ k col : Nat, k < 1 → col < 5 → onBuffer base (0 + 6 * k + col) 0 →
      5 ≠ (0 : Int).toNat / 8 * base.inst.W + (0 + 6 * (k : Int) + col).toNat := by
  refine ⟨⟨_, rfl⟩, ⟨_, rfl⟩, fun k col hk hc _ => ?_⟩
  show 5 ≠ 0 * 16 + (0 + 6 * (k : Int) + col).toNat
  omega
theorem witness_DrawBitmapSetsItsOnPixels : (0 : Int) ≤ 0 ∧ (0 : Int) < 1 ∧ (0 : Int) < 9
    ∧ [1#8].length < ((9 : Int).toNat + 7) / 8 * (1 : Int).toNat
    ∧ ((9 : Int).toNat + 7) / 8 * (1 : Int).toNat ≤ [1#8, 2#8].length := by decide
theorem witness_BitmapByteIsReversedInTheBuffer : 1 < base.inst.NP ∧ (0 : Int) < 1 ∧ (1 : Int).toNat ≤ [0x81#8].length
    ∧ 15 + 0 < base.inst.W := by decide
theorem witness_DigitsMakeUpTheValue : 65535 < 65536 ∧ 2 ≤ (digits 10 false).length := by decide
theorem witness_OverlayNeverClears : (∃ t, exec (.drawChar 11 9 200) base = .next t) ∧ onBuffer base 15 15
    ∧ pix base 15 15 = true := ⟨⟨_, rfl⟩, by unfold onBuffer; decide, by decide⟩
theorem witness_DrawingTouchesOnlyFB : isDrawing (.fill 1) = true ∧ ∃ t, exec (.fill 1) base = .next t :=
  ⟨rfl, _, rfl⟩
theorem witness_SerialTouchesOnlySerialPins : isDrawing .flush = false ∧ ∃ t, exec .flush base = .next t :=
  ⟨rfl, _, rfl⟩
theorem witness_NoByteOutsideTheBufferChanges : base.fb.wf ∧ base.inst.NB ≤ 32
    ∧ ∃ t, exec (.drawChar 11 9 65) base = .next t := ⟨by decide, by decide, _, rfl⟩
theorem witness_SendsDependOnOperandsAlone : Instr.wrdat 1 ≠ .flush ∧ Instr.drawChar 0 0 200 ≠ .flush
    ∧ (∃ t, exec (.wrdat 1) base = .next t) ∧ (∃ t, exec (.wrdat 1) (ready (inst 128 64)) = .next t)
    ∧ (∃ t, exec (.drawChar 0 0 200) base = .next t)
    ∧ (∃ t, exec (.drawChar 0 0 200) { base with port := [.request 0x49 []] } = .next t)
    ∧ base.inst = { base with port := [.request 0x49 []] }.inst ∧ base.fb = { base with port := [.request 0x49 []] }.fb
    ∧ base.free = { base with port := [.request 0x49 []] }.free :=
  ⟨by decide, by decide, ⟨_, rfl⟩, ⟨_, rfl⟩, ⟨_, rfl⟩, ⟨_, rfl⟩, rfl, rfl, rfl⟩
theorem witness_steps : (∃ t, step powerOn = .next t) ∧ (∃ t, step base = .next t)
    ∧ ∃ t, step { base with port := [.request 0x49 []] } = .next t := ⟨⟨_, rfl⟩, ⟨_, rfl⟩, _, rfl⟩
theorem witness_InvariantBeforeReset : powerOn.Inv :=
  ⟨by decide, by decide, rfl, fun _ => ⟨rfl, rfl⟩, fun h => by cases h⟩
theorem witness_InvariantAfterReset : started.Inv ∧ started.phase = .ready ∧ instLegal started.inst := by
  refine ⟨⟨by decide, by decide, by rfl, (fun h => by cases h), fun _ => ⟨[], by rfl⟩⟩, rfl, rfl⟩
theorem witness_step_after_reset : ∃ t, step started = .next t := ⟨_, rfl⟩
theorem witness_NoFrameBeforeResetIsReleased : started.trace =
      [.pin .dc false, .pin .cs false, .pin .res true, .delay 10, .pin .res false, .delay 60]
        ++ Event.pin .res true :: bringupFrames.flatMap frameEvents
    ∧ ∀ w, Event.pin .res w ∉ bringupFrames.flatMap frameEvents :=
  ⟨rfl, res_not_mem_frames _⟩

end Sys2Proof.Tests
end

section
/-! PROOFS. The converter and its inverse (20_memory R32, R33): the equations of the converter, the ranges of both
directions, and that each undoes the other. -/

namespace Sys2Proof.Spec
open Sys2Proof.Machine

@[simp] theorem convert_page (W x y : Nat) : (convert W x y).page = y / 8 := rfl

@[simp] theorem convert_index (W x y : Nat) : (convert W x y).index = y / 8 * W + x := rfl

@[simp] theorem convert_bit (W x y : Nat) : (convert W x y).bit = y % 8 := rfl

/-- The mask is the power of two of the bit: shifting a one and cutting to a byte agree (00_scope R9). -/
theorem convert_mask (W x y : Nat) : (convert W x y).mask = trunc8 (2 ^ (convert W x y).bit) := by
  apply BitVec.eq_of_toNat_eq
  simp [convert, trunc8, Nat.shiftLeft_eq]

@[simp] theorem convertBack_fst (W index bit : Nat) : (convertBack W index bit).1 = index % W := rfl

@[simp] theorem convertBack_snd (W index bit : Nat) : (convertBack W index bit).2 = index / W * 8 + bit := rfl

/-- Division with remainder of an index recovers its page and column, since no other pair shares it (`index_inj`). -/
theorem convertBack_convert {W x : Nat} (y : Nat) (hx : x < W) :
    convertBack W (convert W x y).index (convert W x y).bit = (x, y) := by
  obtain ⟨hpage, hcol⟩ : (y / 8 * W + x) / W = y / 8 ∧ (y / 8 * W + x) % W = x :=
    index_inj (Nat.mod_lt _ (Nat.zero_lt_of_lt hx)) hx (Nat.div_add_mod' _ _)
  apply Prod.ext
  · exact hcol
  · calc (y / 8 * W + x) / W * 8 + y % 8 = y / 8 * 8 + y % 8 := by rw [hpage]
      _ = y := Nat.div_add_mod' y 8

/-- The inverse lands on a pixel of the instance: the page of an index below `NB` is below `NP` (20_memory R33). -/
theorem convertBack_inRange {p : Params} {index bit : Nat} (hW : 0 < p.W) (hH : p.H = 8 * p.NP) (hi : index < p.NB)
    (hb : bit ≤ 7) : (convertBack p.W index bit).1 < p.W ∧ (convertBack p.W index bit).2 < p.H := by
  have hpage : index / p.W < p.NP := Nat.div_lt_of_lt_mul (by rwa [Nat.mul_comm])
  refine ⟨Nat.mod_lt _ hW, ?_⟩
  rw [convertBack_snd]
  omega

/-- The converter undoes its inverse, at every index and every bit of a byte (20_memory R33). -/
theorem convert_convertBack (W index : Nat) {bit : Nat} (hb : bit ≤ 7) :
    (convert W (convertBack W index bit).1 (convertBack W index bit).2).index = index
      ∧ (convert W (convertBack W index bit).1 (convertBack W index bit).2).bit = bit := by
  have hpage : (index / W * 8 + bit) / 8 = index / W := by omega
  constructor
  · rw [convert_index, convertBack_fst, convertBack_snd, hpage]
    exact Nat.div_add_mod' index W
  · rw [convert_bit, convertBack_snd]
    omega

/-- Settles O9: the ranges come from `page_lt` and `index_lt`, the two directions of the inverse from
`convertBack_convert` and `convert_convertBack`. -/
theorem converterIsABijection : Obligations.ConverterIsABijection := by
  intro p hW hH
  constructor
  · intro x y hx hy
    have hpage : y / 8 < p.NP := page_lt hH hy
    have hbit : y % 8 ≤ 7 := Nat.le_of_lt_succ (Nat.mod_lt y (by decide))
    exact ⟨convert_page p.W x y, convert_bit p.W x y, convert_index p.W x y, hpage, index_lt hpage hx, hbit,
      convert_mask p.W x y, convertBack_convert y hx⟩
  · intro index bit hi hb
    obtain ⟨hx, hy⟩ := convertBack_inRange hW hH hi hb
    exact ⟨hx, hy, convert_convertBack p.W index hb⟩

end Sys2Proof.Spec
end

section
/-! PROOFS. The request table of 30_encoding R57 as the decoder reads it, and the reserved codes and operands of R58. -/

namespace Sys2Proof.Spec
open Sys2Proof.Machine Sys2Proof.Laws

theorem wf_setAddrMode {mode : U2} (h : mode ≠ 3) : (Instr.setAddrMode mode).wf = true := by
  simp only [Instr.wf, Instr.illFormed, if_neg h, Option.isNone_none]

theorem wf_drawString (x y : Int) {t : List Byte} (h : (0 : Byte) ∉ t) : (Instr.drawString x y t).wf = true := by
  simp only [Instr.wf, Instr.illFormed, if_neg h, Option.isNone_none]

/-- A source is short only where its box is not empty (43_glyph R112). -/
theorem sourceShort_eq_false {w h : Int} {src : List Byte}
    (hlen : 0 < w → 0 < h → bitmapBytes w h ≤ src.length) : sourceShort w h src = false := by
  by_cases hw : 0 < w
  · by_cases hh : 0 < h
    · simp [sourceShort, Nat.not_lt.2 (hlen hw hh)]
    · simp [sourceShort, hh]
  · simp [sourceShort, hw]

theorem wf_drawBitmap (x y : Int) {w h : Int} {src : List Byte}
    (hlen : 0 < w → 0 < h → bitmapBytes w h ≤ src.length) : (Instr.drawBitmap x y w h src).wf = true := by
  simp [Instr.wf, Instr.illFormed, sourceShort_eq_false hlen]

/-- Settles O2: a row of the table is the encoding of its operation, so each clause is that operation's round trip, and
legal operands are those that make it well-formed. -/
theorem requestTableDecodes : Obligations.RequestTableDecodes :=
  ⟨fun b => RoundTrip.wrcmd b rfl,
    fun b => RoundTrip.wrdat b rfl,
    fun v => RoundTrip.setContrast v rfl,
    fun sel => RoundTrip.setDispMode sel rfl,
    fun on => RoundTrip.setDisplayOn on rfl,
    fun v => RoundTrip.setColStart v rfl,
    fun mode hmode => RoundTrip.setAddrMode mode (wf_setAddrMode hmode),
    fun a b => RoundTrip.setColRange a b rfl,
    fun a b => RoundTrip.setPageRange a b rfl,
    fun page => RoundTrip.setPageStart page rfl,
    fun line => RoundTrip.setStartLine line rfl,
    fun b => RoundTrip.setSegRemap b rfl,
    fun ratio => RoundTrip.setMuxRatio ratio rfl,
    fun b => RoundTrip.setComScan b rfl,
    fun offset => RoundTrip.setOffset offset rfl,
    fun seq remap => RoundTrip.setComPins seq remap rfl,
    fun divide freq => RoundTrip.setClock divide freq rfl,
    fun p q => RoundTrip.setPrecharge p q rfl,
    fun sel => RoundTrip.setVcomh sel rfl,
    fun enable => RoundTrip.setChargePump enable rfl,
    RoundTrip.clear rfl,
    fun b => RoundTrip.fill b rfl,
    fun x y c => RoundTrip.setPixel x y c rfl,
    fun x y w h c => RoundTrip.drawRect x y w h c rfl,
    fun x y w h c => RoundTrip.fillRect x y w h c rfl,
    fun x y ch => RoundTrip.drawChar x y ch rfl,
    fun x y t ht => RoundTrip.drawString x y t (wf_drawString x y ht),
    fun x y w h src hlen => RoundTrip.drawBitmap x y w h src (wf_drawBitmap x y hlen),
    fun x y v z => RoundTrip.drawNumber x y v z rfl,
    RoundTrip.flush rfl⟩

/-- A code outside the table reaches none of the thirty rows (30_encoding R58). -/
theorem assembleRequest_reserved {op : Byte} (ops : List Operand) (h : op.toNat ∉ requestCodes) :
    assembleRequest op ops = .error (.reservedCode op) := by
  unfold assembleRequest
  split
  case h_31 => rfl
  all_goals
    rename_i hrow
    rw [hrow] at h
    exact absurd (by decide) h

theorem decodeItem_reserved {op : Byte} (ops : List Operand) (h : op.toNat ∉ requestCodes) :
    decodeItem (.request op ops) = .error (.reservedCode op) := by
  simp only [decodeItem, decodeRequest, assembleRequest_reserved ops h]

/-- What the decoder rejects, the step refuses with the decoder's reason (60_exceptions R136). -/
theorem step_of_decodeItem_error {s : State} {item : PortItem} {rest : List PortItem} {r : Reject} (hs : s.accepting)
    (hport : s.port = item :: rest) (hdec : decodeItem item = .error r) : step s = .refused (.rejected r) := by
  obtain ⟨hlegal, hready⟩ := hs
  simp only [step, hlegal, hready, hport, hdec]

/-- An accepting state refuses an instruction only for its operands, and then by their reason (60_exceptions R136). -/
theorem exec_of_refusedOperand {i : Instr} {s : State} {r : Reject} (hs : s.accepting)
    (hi : refusedOperand i = some r) : exec i s = .refused (.rejected r) := by
  rw [exec_eq, (requestRefusal_eq_none s).2 hs, hi]

/-- Settles O7: the decoder rejects the reserved codes and mode 3, and the meaning of SETADDRMODE refuses
mode 3 again. -/
theorem reservedRequestsRefused : Obligations.ReservedRequestsRefused := by
  intro s rest hs
  refine ⟨fun op ops hop hport => ?_, fun hport => ?_, ?_⟩
  · exact step_of_decodeItem_error hs hport (decodeItem_reserved ops hop)
  · exact step_of_decodeItem_error hs hport rfl
  · exact exec_of_refusedOperand hs rfl

end Sys2Proof.Spec
end

section
/-! PROOFS. The serial primitives (40_serial R70 to R75): `write` as the one frame of 30_encoding R50, and the reset
sequence as the pulse, the bring-up frames and the clear. -/

namespace Sys2Proof.Spec
open Sys2Proof.Machine Sys2Proof.Laws

/-! ### One frame -/

/-- The model's events of a frame are the rows of the table of 30_encoding R50. -/
theorem frameEvents_eq_frame27 (f : Frame) : frameEvents f = frame27 f.mode.level f.byte := rfl

/-- A frame changes the pins as `apply_frame` says and appends its events: `write(m, b)` (40_serial R70). -/
theorem sendFrames_singleton (f : Frame) (s : State) : sendFrames [f] s = afterFrame s (f.mode.level, f.byte) := by
  have hevents : [f].flatMap frameEvents = frameEvents f := List.flatMap_singleton ..
  rw [sendFrames, hevents, emit, apply_frame, frameEvents_eq_frame27]
  rfl

/-- An accepted instruction that sends one frame and draws nothing is that frame's `write` (40_serial R71, R72). -/
theorem exec_of_one_frame {i : Instr} {s : State} {f : Frame} (hs : s.accepting) (hok : refusedOperand i = none)
    (hdraw : drawnBy s i = s) (hframe : framesOf s i = [f]) :
    exec i s = .next (afterFrame s (f.mode.level, f.byte)) := by
  rw [exec_accepting hs hok, ranTo, hdraw, hframe, sendFrames_singleton]

/-- Settles O17: both are one frame (`exec_of_one_frame`), and their codes decode by the round trip. -/
theorem writeSendsOneFrame : Obligations.WriteSendsOneFrame := fun _ b hs =>
  ⟨exec_of_one_frame (f := ⟨.command, b⟩) hs rfl rfl rfl, exec_of_one_frame (f := ⟨.data, b⟩) hs rfl rfl rfl,
    RoundTrip.wrcmd b rfl, RoundTrip.wrdat b rfl⟩

/-! ### The reset sequence -/

/-- The events of bytes sent as Command frames, by the table of 30_encoding R50. -/
theorem commandFrames_events (bs : List Byte) :
    (commandFrames bs).flatMap frameEvents = bs.flatMap (frame27 false) := List.flatMap_map ..

/-- The sixteen configuration setters send the 26 bytes of 40_serial R75. -/
theorem configBytes_eq_bringupBytes : configBytes = bringupBytes := by decide

theorem bringup_events : bringupFrames.flatMap frameEvents = bringupBytes.flatMap (frame27 false) := by
  rw [bringupFrames, configBytes_eq_bringupBytes, commandFrames_events]

/-- The last frame of the bring-up is display on (40_serial R74), so it decides the levels of CS, DC, CLK and DAT. -/
theorem bringupFrames_last : ∃ fs, bringupFrames = fs ++ [⟨.command, 0xAF⟩] :=
  ⟨bringupFrames.dropLast, by decide⟩

/-- The pulse leaves RES at 1 (40_serial R74). -/
theorem apply_pulse_res (p : Params) (ps : Pins) : ((pulseEvents p).foldl Pins.apply ps).res = .level true := rfl

/-- The pins after the reset sequence, whatever they were before: RES from the pulse, the others from the last frame
(70_reset R152). -/
theorem resetSequence_pins_eq (s : State) : (resetSequence s).pins =
    ⟨.level true, .level false, .level true, .level false, .level true⟩ := by
  obtain ⟨fs, hlast⟩ := bringupFrames_last
  rw [resetSequence_pins, List.foldl_append, hlast, apply_frames_last, apply_pulse_res]
  rfl

/-- What the reset sequence appends to the trace (40_serial R75). -/
theorem resetSequence_trace_eq (s : State) :
    (resetSequence s).trace = s.trace ++ (pulse s.inst ++ bringupBytes.flatMap (frame27 false)) := by
  rw [resetSequence_trace, bringup_events]
  rfl

/-- 7 events of the pulse and 27 for each of the 26 frames (40_serial R75). -/
theorem bringup_events_length (p : Params) : (pulse p ++ bringupBytes.flatMap (frame27 false)).length = 709 := by
  rw [List.length_append, ← bringup_events, frames_events_length]
  rfl

/-- In Ready a byte of FB reads as the buffer holds it (20_memory R43). -/
theorem readFB_ready {s : State} (h : s.phase = .ready) (i : Nat) : s.readFB i = s.fb.read i := by
  rw [State.readFB, h]

/-- The clear of the reset sequence reaches every byte of FB (70_reset R152). -/
theorem resetSequence_readFB {s : State} (hfb : s.fb.wf) {i : Nat} (hi : i < s.inst.NB) :
    (resetSequence s).readFB i = 0x00 := by
  rw [readFB_ready (resetSequence_phase s), resetSequence_fb, read_fillBytes hfb, if_pos hi]

/-- In PowerOn with nothing presented the reset sequence runs by itself (70_reset R151). -/
theorem step_powerOn_idle {s : State} (hlegal : instLegal s.inst) (hphase : s.phase = .powerOn) (hport : s.port = []) :
    step s = .next (resetSequence s) := by
  simp only [step, hlegal, hphase, hport]

/-- Settles O11: the step is the reset sequence, and each clause is what it does to that field. -/
theorem resetSequenceLeavesReady : Obligations.ResetSequenceLeavesReady := by
  intro s hlegal hphase hport htrace hfb
  have hevents : (resetSequence s).trace = pulse s.inst ++ bringupBytes.flatMap (frame27 false) := by
    rw [resetSequence_trace_eq, htrace, List.nil_append]
  refine ⟨resetSequence s, step_powerOn_idle hlegal hphase hport, fun i hi => resetSequence_readFB hfb hi,
    resetSequence_pins_eq s, resetSequence_phase s, hevents, ?_, resetSequence_inst s, ?_⟩
  · rw [hevents, bringup_events_length]
  · rw [resetSequence_port, hport]

end Sys2Proof.Spec
end

section
/-! PROOFS. The typed setters (41_controller R80 to R98): a command sent as its Command frames, and the bytes of each
setter by the formulas of 30_encoding R55. -/

namespace Sys2Proof.Spec
open Sys2Proof.Machine

/-! ### A command -/

/-- Sending bytes as Command frames is one `write` after another (41_controller R80). -/
theorem sendFrames_commandFrames (bs : List Byte) (s : State) : sendFrames (commandFrames bs) s = afterCommand s bs := by
  induction bs generalizing s with
  | nil => exact sendFrames_nil s
  | cons b bs ih =>
    calc sendFrames (commandFrames (b :: bs)) s
        = sendFrames (commandFrames bs) (sendFrames [⟨.command, b⟩] s) := sendFrames_cons ..
      _ = afterCommand (sendFrames [⟨.command, b⟩] s) bs := ih _
      _ = afterCommand (afterFrame s (false, b)) bs := by rw [sendFrames_singleton]; rfl

/-- An accepted instruction that sends a command and draws nothing leaves the state after its bytes
(41_controller R80). -/
theorem exec_of_command {i : Instr} {s : State} {bs : List Byte} (hs : s.accepting) (hok : refusedOperand i = none)
    (hdraw : drawnBy s i = s) (hframes : framesOf s i = commandFrames bs) :
    exec i s = .next (afterCommand s bs) := by
  rw [exec_accepting hs hok, ranTo, hdraw, hframes, sendFrames_commandFrames]

/-- SETADDRMODE refuses mode 3 alone (41_controller R85). -/
theorem refusedOperand_setAddrMode {mode : U2} (h : mode ≠ 3) : refusedOperand (.setAddrMode mode) = none := if_neg h

/-! ### `trunc8` over the operations of 30_encoding R55: the spec cuts a number at the end, the model computes on bytes -/

theorem trunc8_or (m n : Nat) : trunc8 (m ||| n) = trunc8 m ||| trunc8 n := BitVec.ofNat_or

theorem trunc8_and (m n : Nat) : trunc8 (m &&& n) = trunc8 m &&& trunc8 n := BitVec.ofNat_and

/-- Bits shifted past bit 7 are lost whether the cut comes before the shift or after it. -/
theorem trunc8_shiftLeft (n k : Nat) : trunc8 (n <<< k) = trunc8 n <<< k := by
  apply BitVec.eq_of_toNat_eq
  simp [trunc8, Nat.shiftLeft_eq]

/-- Of a byte alone: a wider number would shift bits down that the cut loses. -/
theorem trunc8_shiftRight_toNat (v : Byte) (k : Nat) : trunc8 (v.toNat >>> k) = v >>> k := by
  rw [trunc8, ← BitVec.toNat_ushiftRight, BitVec.ofNat_toNat, BitVec.setWidth_eq]

/-- An operand narrower than a byte is widened by zeros. -/
theorem trunc8_toNat {w : Nat} (v : BitVec w) : trunc8 v.toNat = v.setWidth 8 := BitVec.ofNat_toNat 8 v

theorem trunc8_toNat_byte (v : Byte) : trunc8 v.toNat = v := by
  rw [trunc8_toNat, BitVec.setWidth_eq]

/-! ### The bytes of the setters -/

theorem dispModeBytes_eq (sel : U2) : dispModeBytes sel = [trunc8 (0xA4 ||| sel.toNat)] := by
  rw [trunc8_or, trunc8_toNat]; rfl

theorem displayOnBytes_eq (on : Bit) : displayOnBytes on = [trunc8 (0xAE ||| on.toNat)] := by
  rw [trunc8_or, trunc8_toNat]; rfl

theorem pageStartBytes_eq (page : Byte) : pageStartBytes page = [trunc8 (0xB0 ||| page.toNat)] := by
  rw [trunc8_or, trunc8_toNat_byte]; rfl

theorem startLineBytes_eq (line : Byte) : startLineBytes line = [trunc8 (0x40 ||| line.toNat)] := by
  rw [trunc8_or, trunc8_toNat_byte]; rfl

theorem segRemapBytes_eq (bit : Bit) : segRemapBytes bit = [trunc8 (0xA0 ||| bit.toNat)] := by
  rw [trunc8_or, trunc8_toNat]; rfl

theorem comScanBytes_eq (bit : Bit) : comScanBytes bit = [trunc8 (0xC0 ||| (bit.toNat <<< 3))] := by
  rw [trunc8_or, trunc8_shiftLeft, trunc8_toNat]; rfl

theorem addrModeBytes_eq (mode : U2) : addrModeBytes mode = [0x20, trunc8 mode.toNat] := by
  rw [trunc8_toNat]; rfl

theorem comPinsBytes_eq (seq remap : Bit) :
    comPinsBytes seq remap = [0xDA, trunc8 ((seq.toNat <<< 4) ||| (remap.toNat <<< 5) ||| 0x02)] := by
  rw [trunc8_or, trunc8_or, trunc8_shiftLeft, trunc8_shiftLeft, trunc8_toNat, trunc8_toNat]; rfl

theorem clockBytes_eq (divide freq : Byte) :
    clockBytes divide freq = [0xD5, trunc8 (divide.toNat ||| (freq.toNat <<< 4))] := by
  rw [trunc8_or, trunc8_shiftLeft, trunc8_toNat_byte, trunc8_toNat_byte]; rfl

theorem prechargeBytes_eq (phase1 phase2 : Byte) :
    prechargeBytes phase1 phase2 = [0xD9, trunc8 (phase1.toNat ||| (phase2.toNat <<< 4))] := by
  rw [trunc8_or, trunc8_shiftLeft, trunc8_toNat_byte, trunc8_toNat_byte]; rfl

/-- The four codes of 41_controller R97, by the model's cases and by the spec's table. -/
theorem vcomhCode_eq : ∀ sel : U2, vcomhCode sel = trunc8 ([0x00, 0x20, 0x30, 0x40].getD sel.toNat 0) := by decide

theorem vcomhBytes_eq (sel : U2) : vcomhBytes sel = [0xDB, trunc8 ([0x00, 0x20, 0x30, 0x40].getD sel.toNat 0)] := by
  rw [← vcomhCode_eq]; rfl

theorem chargePumpBytes_eq (enable : Bit) :
    chargePumpBytes enable = [0x8D, trunc8 (0x10 ||| (enable.toNat <<< 2))] := by
  rw [trunc8_or, trunc8_shiftLeft, trunc8_toNat]; rfl

theorem colStartBytes_eq (v : Byte) :
    colStartBytes v = [trunc8 (v.toNat &&& 0x0F), trunc8 (0x10 ||| (v.toNat >>> 4))] := by
  rw [trunc8_and, trunc8_or, trunc8_toNat_byte, trunc8_shiftRight_toNat]; rfl

/-! ### The setters -/

/-- Settles O18: each sends its one byte as a command (`exec_of_command`), and the byte is the spec's formula. -/
theorem oneFrameSettersSendTheirByte : Obligations.OneFrameSettersSendTheirByte := fun _ hs =>
  ⟨fun sel => exec_of_command hs rfl rfl (congrArg commandFrames (dispModeBytes_eq sel)),
    fun on => exec_of_command hs rfl rfl (congrArg commandFrames (displayOnBytes_eq on)),
    fun page => exec_of_command hs rfl rfl (congrArg commandFrames (pageStartBytes_eq page)),
    fun line => exec_of_command hs rfl rfl (congrArg commandFrames (startLineBytes_eq line)),
    fun bit => exec_of_command hs rfl rfl (congrArg commandFrames (segRemapBytes_eq bit)),
    fun bit => exec_of_command hs rfl rfl (congrArg commandFrames (comScanBytes_eq bit))⟩

/-- Settles O19: each sends its opcode and its parameter as a command (`exec_of_command`); mode 3 is refused for its
operand. A parameter sent as it is needs no formula. -/
theorem twoFrameSettersSendOpcodeAndParameter : Obligations.TwoFrameSettersSendOpcodeAndParameter := fun _ hs =>
  ⟨fun v => exec_of_command (bs := contrastBytes v) hs rfl rfl rfl,
    fun mode hmode => exec_of_command hs (refusedOperand_setAddrMode hmode) rfl
      (congrArg commandFrames (addrModeBytes_eq mode)),
    exec_of_refusedOperand hs rfl,
    fun ratio => exec_of_command (bs := muxRatioBytes ratio) hs rfl rfl rfl,
    fun offset => exec_of_command (bs := offsetBytes offset) hs rfl rfl rfl,
    fun seq remap => exec_of_command hs rfl rfl (congrArg commandFrames (comPinsBytes_eq seq remap)),
    fun divide freq => exec_of_command hs rfl rfl (congrArg commandFrames (clockBytes_eq divide freq)),
    fun phase1 phase2 => exec_of_command hs rfl rfl (congrArg commandFrames (prechargeBytes_eq phase1 phase2)),
    fun sel => exec_of_command hs rfl rfl (congrArg commandFrames (vcomhBytes_eq sel)),
    fun enable => exec_of_command hs rfl rfl (congrArg commandFrames (chargePumpBytes_eq enable))⟩

/-- Settles O20: both halves of the column start by the spec's formula, low nibble first; the bytes of a range are its
operands as they are. -/
theorem columnAndRangeSettersSendTheirBytes : Obligations.ColumnAndRangeSettersSendTheirBytes := fun _ hs =>
  ⟨fun v => exec_of_command hs rfl rfl (congrArg commandFrames (colStartBytes_eq v)),
    fun start stop => exec_of_command (bs := colRangeBytes start stop) hs rfl rfl rfl,
    fun start stop => exec_of_command (bs := pageRangeBytes start stop) hs rfl rfl rfl⟩

end Sys2Proof.Spec
end

section
/-! PROOFS. The buffer fill and pixel operations (42_pixel R101 to R106): a drawing operation as a change of FB alone,
and SETPIXEL, DRAWRECT and FILLRECT as the plot of a list of pixels. -/

namespace Sys2Proof.Spec
open Sys2Proof.Machine Sys2Proof.Laws

/-! ### A change of FB alone -/

/-- An accepted instruction that sends nothing leaves the state it draws (42_pixel R100). -/
theorem exec_of_drawing {i : Instr} {s t : State} (hs : s.accepting) (hok : refusedOperand i = none)
    (hframes : framesOf s i = []) (hdraw : drawnBy s i = t) : exec i s = .next t := by
  rw [exec_accepting hs hok, ranTo_of_no_frames i s hframes, hdraw]

theorem onlyFB_draw (f : Memory → Memory) (s : State) : onlyFB s (draw f s) := rfl

theorem draw_eq_self {f : Memory → Memory} {s : State} (h : f s.fb = s.fb) : draw f s = s := by
  rw [draw, h]

theorem readFB_draw {s : State} (hs : s.accepting) (f : Memory → Memory) (a : Nat) :
    (draw f s).readFB a = (f s.fb).read a :=
  readFB_ready (s := draw f s) hs.2 a

/-! ### Pixels of a state -/

theorem inRange_iff_onBuffer {s : State} {x y : Int} : inRange s.inst x y = true ↔ onBuffer s x y := inRange_iff

/-- The pixel read through the state's bytes is the model's pixel of its buffer (20_memory R31, R43). -/
theorem pix_eq_pixelOn {s : State} (hs : s.accepting) {x y : Int} (hxy : onBuffer s x y) :
    pix s x y = pixelOn s.inst s.fb x y := by
  rw [pix, readFB_ready hs.2, pixelOn, inRange_iff_onBuffer.2 hxy, Bool.true_and]

/-! ### Plotting a list of pixels -/

section Plot
variable {s : State} (hs : s.accepting) (hfb : s.fb.wf) (color : Bit) (qs : List (Int × Int))
include hs hfb

/-- A plot forces the listed pixels of the buffer to the colour (42_pixel R106). -/
theorem pix_plot {x y : Int} (hxy : onBuffer s x y) :
    pix (draw (plot s.inst color qs) s) x y = if (x, y) ∈ qs then color == 1 else pix s x y := by
  have hdrawn : pix (draw (plot s.inst color qs) s) x y = pixelOn s.inst (plot s.inst color qs s.fb) x y :=
    pix_eq_pixelOn (s := draw (plot s.inst color qs) s) hs hxy
  rw [hdrawn, pixelOn_plot hfb _ _ _ (inRange_iff_onBuffer.2 hxy), pix_eq_pixelOn hs hxy]

/-- A plot leaves every byte as it was that holds no listed pixel of the buffer (42_pixel R106). -/
theorem readFB_plot_other {a : Nat} (ha : ∀ x y, onBuffer s x y → (x, y) ∈ qs → a ≠ byteOf s x y) :
    (draw (plot s.inst color qs) s).readFB a = s.readFB a := by
  rw [readFB_draw hs, readFB_ready hs.2]
  exact read_plot_other hfb _ _ _ fun q hq hin => (ha q.1 q.2 (inRange_iff_onBuffer.1 hin) hq).symm

end Plot

/-- SETPIXEL out of the buffer leaves FB as it is (42_pixel R103). -/
theorem plot_singleton_outside {s : State} {x y : Int} (hxy : ¬ onBuffer s x y) (color : Bit) :
    plot s.inst color [(x, y)] s.fb = s.fb :=
  if_neg (mt inRange_iff_onBuffer.1 hxy)

/-- The pixels of DRAWRECT: those of the box that meet the perimeter condition (42_pixel R104). -/
theorem mem_perimeterPixels {x y w h i j : Int} :
    (i, j) ∈ (boxPixels x y w h).filter (fun q => onPerimeter x y w h q.1 q.2) ↔
      (x ≤ i ∧ i < x + w ∧ y ≤ j ∧ j < y + h) ∧ (i = x ∨ i = x + w - 1 ∨ j = y ∨ j = y + h - 1) := by
  simp [List.mem_filter, mem_boxPixels, onPerimeter, or_assoc]

/-! ### The operations -/

/-- Settles O25: both are the fill of the buffer, whose bytes are `read_fillBytes`. -/
theorem clearAndFillSetEveryByte : Obligations.ClearAndFillSetEveryByte := by
  intro s hs hfb
  have hfill (b : Byte) : exec (.fill b) s = .next (draw (fillBytes s.inst b) s) := exec_of_drawing hs rfl rfl rfl
  have hclear : exec .clear s = .next (draw (fillBytes s.inst 0x00) s) := exec_of_drawing hs rfl rfl rfl
  have hread (b : Byte) (a : Nat) :
      (draw (fillBytes s.inst b) s).readFB a = if a < s.inst.NB then b else s.readFB a := by
    rw [readFB_draw hs, read_fillBytes hfb, readFB_ready hs.2]
  exact ⟨fun b => ⟨_, hfill b, onlyFB_draw _ s, hread b⟩, hclear.trans (hfill 0x00).symm,
    ⟨_, hclear, onlyFB_draw _ s, fun a ha => (hread 0x00 a).trans (if_pos ha)⟩, RoundTrip.clear rfl,
    fun b => RoundTrip.fill b rfl⟩

/-- Settles O26: SETPIXEL is the plot of its one pixel. -/
theorem setPixelChangesOnePixel : Obligations.SetPixelChangesOnePixel := by
  intro s x y color hs hfb
  have hexec : exec (.setPixel x y color) s = .next (draw (plot s.inst color [(x, y)]) s) :=
    exec_of_drawing hs rfl rfl rfl
  refine ⟨fun hout => ?_, fun hin => ⟨_, hexec, onlyFB_draw _ s, ?_, fun px py hp hne => ?_, fun a ha => ?_⟩,
    RoundTrip.setPixel x y color rfl⟩
  · rw [hexec, draw_eq_self (plot_singleton_outside hout color)]
  · exact (pix_plot hs hfb color _ hin).trans (if_pos (List.mem_singleton_self _))
  · exact (pix_plot hs hfb color _ hp).trans (if_neg (mt List.mem_singleton.1 hne))
  · refine readFB_plot_other hs hfb color _ fun px py _ hmem => ?_
    obtain ⟨rfl, rfl⟩ := Prod.mk.inj (List.mem_singleton.1 hmem)
    exact ha

/-- Settles O28: DRAWRECT is the plot of the perimeter (`mem_perimeterPixels`). -/
theorem drawRectForcesThePerimeter : Obligations.DrawRectForcesThePerimeter := by
  intro s x y w h color hs hfb
  refine ⟨RoundTrip.drawRect x y w h color rfl, _, exec_of_drawing hs rfl rfl rfl, onlyFB_draw _ s,
    fun i j hij => (pix_plot hs hfb color _ hij).trans (if_congr mem_perimeterPixels rfl rfl),
    fun a ha => readFB_plot_other hs hfb color _ fun i j hij hmem => ?_⟩
  obtain ⟨⟨hx, hxw, hy, hyh⟩, hedge⟩ := mem_perimeterPixels.1 hmem
  exact ha i j hij hx hxw hy hyh hedge

/-- Settles O29: FILLRECT is the plot of the box (`mem_boxPixels`). -/
theorem fillRectForcesTheBox : Obligations.FillRectForcesTheBox := by
  intro s x y w h color hs hfb
  refine ⟨RoundTrip.fillRect x y w h color rfl, _, exec_of_drawing hs rfl rfl rfl, onlyFB_draw _ s,
    fun i j hij => (pix_plot hs hfb color _ hij).trans (if_congr mem_boxPixels rfl rfl),
    fun a ha => readFB_plot_other hs hfb color _ fun i j hij hmem => ?_⟩
  obtain ⟨hx, hxw, hy, hyh⟩ := mem_boxPixels.1 hmem
  exact ha i j hij hx hxw hy hyh

end Sys2Proof.Spec
end

section
/-! PROOFS. The text and bitmap operations (43_glyph R111 to R114): a text as one DRAWCHAR per character, DRAWNUMBER as the
text of its digits, and DRAWBITMAP as the plot of its on pixels. -/

namespace Sys2Proof.Spec
open Sys2Proof.Machine Sys2Proof.Laws

/-! ### Texts and numbers -/

theorem accepting_drawGlyph {s : State} (hs : s.accepting) (x y : Int) (ch : Byte) : (drawGlyph x y ch s).accepting := hs

/-- Every code runs, also one without a glyph (43_glyph R110; log 4). -/
theorem exec_drawChar {s : State} (hs : s.accepting) (x y : Int) (ch : Byte) :
    exec (.drawChar x y ch) s = .next (drawGlyph x y ch s) :=
  exec_of_drawing hs rfl rfl rfl

theorem runAll_cons {i : Instr} {s t : State} (h : exec i s = .next t) (is : List Instr) :
    runAll (i :: is) s = runAll is t := by
  simp only [runAll, h]

/-- The requests a text stands for: one DRAWCHAR per character, at a pitch of 6 (43_glyph R111). -/
def charRequests (x y : Int) (t : List Byte) : List Instr :=
  t.mapIdx fun k ch => Instr.drawChar (x + 6 * (k : Int)) y ch

theorem charRequests_cons (x y : Int) (ch : Byte) (t : List Byte) :
    charRequests x y (ch :: t) = .drawChar x y ch :: charRequests (x + 6) y t := by
  have hpitch (k : Nat) : x + 6 * ((k : Int) + 1) = x + 6 + 6 * (k : Int) := by omega
  simp [charRequests, List.mapIdx_cons, hpitch]

/-- The requests of a text given by a code per item, read at the items. -/
theorem charRequests_map {α : Type} (x y : Int) (code : α → Byte) (items : List α) :
    charRequests x y (items.map code) = items.mapIdx fun k a => Instr.drawChar (x + 6 * (k : Int)) y (code a) := by
  refine List.ext_getElem? fun k => ?_
  simp [charRequests, Function.comp_def]

/-- Drawing a text is running its DRAWCHARs one after another (43_glyph R111). -/
theorem runAll_charRequests (y : Int) (t : List Byte) : ∀ (x : Int) {s : State}, s.accepting →
    runAll (charRequests x y t) s = .next (drawText x y t s) := by
  induction t with
  | nil => exact fun _ _ _ => rfl
  | cons ch t ih =>
    intro x s hs
    rw [charRequests_cons, runAll_cons (exec_drawChar hs x y ch)]
    exact ih (x + 6) (accepting_drawGlyph hs x y ch)

/-- The model's digits are those of 43_glyph R113 and R114: a value below 100000 has its ten-thousands as fifth digit, and
the first digit shown is the first that is not 0. -/
theorem digits_eq_shownDigits {v : Nat} (hv : v < 100000) (zeroFill : Bit) :
    digits v (zeroFill == 1) = shownDigits v zeroFill := by
  have htop : v / 10000 % 10 = v / 10000 := Nat.mod_eq_of_lt (Nat.div_lt_of_lt_mul hv)
  by_cases hz : zeroFill = 1
  · simp [digits, shownDigits, fiveDigits, htop, hz]
  have hz' : (zeroFill == 1) = false := beq_false_of_ne hz
  simp only [digits, shownDigits, fiveDigits, hz, hz', List.map, List.take, htop, Nat.div_one]
  by_cases h4 : v / 10000 = 0
  · by_cases h3 : v / 1000 % 10 = 0
    · by_cases h2 : v / 100 % 10 = 0
      · by_cases h1 : v / 10 % 10 = 0 <;> simp [h4, h3, h2, h1]
      · simp [h4, h3, h2]
    · simp [h4, h3]
  · simp [h4]

/-- The text of a number has the code 48 + d for each digit shown (43_glyph R113). -/
theorem numberText_eq (value : U16) (zeroFill : Bit) :
    numberText value zeroFill = (shownDigits value.toNat zeroFill).map fun d => trunc8 (48 + d) := by
  rw [numberText, digits_eq_shownDigits (value.isLt.trans (by decide))]
  rfl

/-- Settles O37: DRAWNUMBER draws the text of its digits, which is their DRAWCHARs. -/
theorem drawNumberDrawsItsDigits : Obligations.DrawNumberDrawsItsDigits := by
  intro s x y value zeroFill hs
  have hexec : exec (.drawNumber x y value zeroFill) s = .next (drawText x y (numberText value zeroFill) s) :=
    exec_of_drawing hs rfl rfl rfl
  refine ⟨?_, ⟨_, hexec⟩, RoundTrip.drawNumber x y value zeroFill rfl⟩
  rw [hexec, ← runAll_charRequests y _ x hs, numberText_eq, charRequests_map]

/-! ### Bitmaps -/

theorem sourceShort_eq_true {w h : Int} {src : List Byte} (hw : 0 < w) (hh : 0 < h)
    (hlen : src.length < bitmapBytes w h) : sourceShort w h src = true := by
  simp [sourceShort, hw, hh, hlen]

/-- A DRAWBITMAP whose source is not short plots its on pixels (43_glyph R112). -/
theorem exec_drawBitmap {s : State} (hs : s.accepting) (x y : Int) {w h : Int} {src : List Byte}
    (hlen : 0 < w → 0 < h → bitmapBytes w h ≤ src.length) :
    exec (.drawBitmap x y w h src) s = .next (draw (plot s.inst 1 (bitmapPixels x y w h src)) s) :=
  exec_of_drawing hs (by simp [refusedOperand, sourceShort_eq_false hlen]) rfl rfl

/-- An empty box has no pixel (43_glyph R112). -/
theorem bitmapPixels_of_empty (x y : Int) {w h : Int} (src : List Byte) (hempty : w ≤ 0 ∨ h ≤ 0) :
    bitmapPixels x y w h src = [] := by
  refine List.eq_nil_iff_forall_not_mem.2 fun q hq => ?_
  obtain ⟨⟨hx, hxw, hy, hyh⟩, -⟩ := mem_bitmapPixels.1 hq
  omega

/-- Settles O35: DRAWBITMAP is the plot of its on pixels (`mem_bitmapPixels`) in colour 1, which sets pixels and clears
none. -/
theorem drawBitmapSetsItsOnPixels : Obligations.DrawBitmapSetsItsOnPixels := by
  intro s x y w h src hs hfb
  refine ⟨fun hempty => ?_, fun hw hh hshort => ?_, fun hw hh hlen => ?_⟩
  · rw [exec_drawBitmap hs x y fun _ _ => by omega, bitmapPixels_of_empty x y src hempty]
    exact congrArg _ (draw_eq_self rfl)
  · exact exec_of_refusedOperand hs (if_pos (sourceShort_eq_true hw hh hshort))
  · refine ⟨RoundTrip.drawBitmap x y w h src (wf_drawBitmap x y fun _ _ => hlen), _,
      exec_drawBitmap hs x y fun _ _ => hlen, onlyFB_draw _ s, fun i j hij => ?_, fun a ha => ?_⟩
    · rw [pix_plot hs hfb 1 _ hij, if_congr mem_bitmapPixels rfl rfl, sourceBit]
      cases pix s i j <;> simp
    · refine readFB_plot_other hs hfb 1 _ fun i j hij hmem => ?_
      obtain ⟨⟨hx, hxw, hy, hyh⟩, -⟩ := mem_bitmapPixels.1 hmem
      exact ha i j hij hx hxw hy hyh

end Sys2Proof.Spec
end

section
/-! PROOFS. FLUSH (44_flush R120, R121): its frames page by page as the spec writes them, their counts and places, and what
it and every other operation that is no drawing operation leave unchanged. -/

namespace Sys2Proof.Spec
open Sys2Proof.Machine Sys2Proof.Laws

/-! ### Rows of equal length, one after another -/

/-- Rows of `W` items laid end to end, item `c` of row `p` at index `p * W + c`. -/
theorem flatMap_range_rows {α : Type} (g : Nat → α) (W n : Nat) :
    ((List.range n).flatMap fun p => (List.range W).map fun c => g (p * W + c)) = (List.range (n * W)).map g := by
  induction n with
  | zero => simp
  | succ n ih => simp [List.range_succ, ih, Nat.succ_mul, List.range_add, Function.comp_def]

/-- Row `p` of rows of `k` items begins at index `p * k`. -/
theorem getElem?_flatMap_range {α : Type} {f : Nat → List α} {k p n : Nat} (hlen : ∀ q, (f q).length = k) (hk : 0 < k)
    (hp : p < n) : ((List.range n).flatMap f)[p * k]? = (f p)[0]? := by
  have hrows (m : Nat) : ((List.range m).flatMap f).length = m * k := by simp [List.length_flatMap, hlen]
  induction n with
  | zero => exact absurd hp (Nat.not_lt_zero p)
  | succ n ih =>
    rw [List.range_succ, List.flatMap_append, List.flatMap_singleton]
    rcases Nat.lt_succ_iff_lt_or_eq.1 hp with hlt | rfl
    · rw [List.getElem?_append_left (by rw [hrows]; exact Nat.mul_lt_mul_of_pos_right hlt hk), ih hlt]
    · rw [List.getElem?_append_right (by rw [hrows]), hrows, Nat.sub_self]

/-! ### The frames of a flush -/

/-- Sending frames is one `write` after another (40_serial R70). -/
theorem sendFrames_eq_afterFrames (fs : List Frame) (s : State) :
    sendFrames fs s = afterFrames s (fs.map fun f => (f.mode.level, f.byte)) := by
  induction fs generalizing s with
  | nil => exact sendFrames_nil s
  | cons f fs ih => rw [sendFrames_cons, sendFrames_singleton, ih]; rfl

/-- One page by the calls of 44_flush R120: SETPAGESTART p, the two frames of SETCOLSTART 0, and the W bytes. -/
theorem pageFrames_eq (p : Params) (fb : Memory) (page : Nat) :
    pageFrames p fb page = [⟨.command, trunc8 (0xB0 ||| page)⟩, ⟨.command, 0x00⟩, ⟨.command, 0x10⟩]
      ++ (List.range p.W).map fun c => ⟨.data, fb.read (page * p.W + c)⟩ := by
  rw [trunc8_or]; rfl

/-- The frames of a flush are those of 44_flush R120, the bytes read from the state. -/
theorem flushFrames_eq_flushSpec {s : State} (hs : s.accepting) :
    (flushFrames s.inst s.fb).map (fun f => (f.mode.level, f.byte)) = flushSpec s := by
  rw [flushFrames, List.map_flatMap]
  refine congrArg (List.flatMap · (List.range s.inst.NP)) (funext fun page => ?_)
  simp [pageFrames_eq, readFB_ready hs.2, Function.comp_def, Mode.level]

/-- A page has three Command frames (44_flush R120). -/
theorem pageFrames_commands (p : Params) (fb : Memory) (page : Nat) :
    ((pageFrames p fb page).filter (·.mode = .command)).length = 3 := by
  simp [pageFrames_eq, List.filter_map, Function.comp_def]

/-- The Data frames of a page carry its W bytes in column order (44_flush R120). -/
theorem pageFrames_data (p : Params) (fb : Memory) (page : Nat) :
    ((pageFrames p fb page).filter (·.mode = .data)).map Frame.byte
      = (List.range p.W).map fun c => fb.read (page * p.W + c) := by
  simp [pageFrames_eq, List.filter_map, Function.comp_def]

theorem flushFrames_commands (p : Params) (fb : Memory) :
    ((flushFrames p fb).filter (·.mode = .command)).length = 3 * p.NP := by
  simp [flushFrames, List.filter_flatMap, List.length_flatMap, pageFrames_commands, Nat.mul_comm]

/-- The Data frames of a flush carry the buffer in index order (44_flush R121). -/
theorem flushFrames_data (p : Params) (fb : Memory) :
    ((flushFrames p fb).filter (·.mode = .data)).map Frame.byte = (List.range p.NB).map fb.read := by
  simp only [flushFrames, List.filter_flatMap, List.map_flatMap, pageFrames_data]
  exact flatMap_range_rows fb.read p.W p.NP

/-- The frames of page `page` begin, with its page start, at position `page * (3 + W)` (44_flush R121). -/
theorem flushFrames_pageStart {p : Params} (fb : Memory) {page : Nat} (hpage : page < p.NP) :
    (flushFrames p fb)[page * (3 + p.W)]? = some ⟨.command, trunc8 (0xB0 ||| page)⟩ := by
  rw [flushFrames, getElem?_flatMap_range (pageFrames_length p fb) (by omega) hpage, pageFrames_eq]
  rfl

/-! ### The operation -/

theorem exec_flush {s : State} (hs : s.accepting) :
    exec .flush s = .next (sendFrames (flushFrames s.inst s.fb) s) :=
  exec_accepting hs rfl

/-- Settles O40: FLUSH sends its frames one after another, and they are the spec's (`flushFrames_eq_flushSpec`). -/
theorem flushSendsTheWholeBuffer : Obligations.FlushSendsTheWholeBuffer := by
  refine ⟨RoundTrip.flush rfl, fun s hs => ?_⟩
  rw [exec_flush hs, sendFrames_eq_afterFrames, flushFrames_eq_flushSpec hs]

/-- Settles O41: the events read back as the frames of the flush (`frames_frameEvents`), so each count is one of those
frames. -/
theorem flushCounts : Obligations.FlushCounts := by
  intro s hs
  refine ⟨_, (flushFrames s.inst s.fb).flatMap frameEvents, exec_flush hs, sendFrames_trace _ s, ?_,
    delay_not_mem_frames _, ?_⟩
  · rw [frames_events_length, flushFrames_length]
  · rw [frames_frameEvents, funext (readFB_ready hs.2)]
    exact ⟨flushFrames_length .., flushFrames_commands .., flushFrames_data .., fun _ => flushFrames_pageStart s.fb⟩

/-- Sending the same frames again leaves the latches as they are: the last frame decides all but RES (40_serial R70). -/
theorem apply_frames_twice (fs : List Frame) (ps : Pins) :
    (fs.flatMap frameEvents).foldl Pins.apply ((fs.flatMap frameEvents).foldl Pins.apply ps)
      = (fs.flatMap frameEvents).foldl Pins.apply ps := by
  rcases fs.eq_nil_or_concat' with rfl | ⟨gs, f, rfl⟩
  · rfl
  · rw [apply_frames_last, apply_frames_last]

/-- Settles O42: a flush leaves the instance and FB, so the second sends the same frames. -/
theorem flushTwiceSendsTheSame : Obligations.FlushTwiceSendsTheSame := by
  intro s hs
  have hagain : (sendFrames (flushFrames s.inst s.fb) s).accepting := hs
  exact ⟨_, _, _, exec_flush hs, exec_flush hagain, sendFrames_trace _ s, sendFrames_trace .., rfl, rfl,
    apply_frames_twice _ s.pins⟩

/-! ### What the operations that draw nothing leave unchanged -/

/-- Only the drawing operations change FB or the counter of log 4 (42_pixel R100). -/
theorem drawnBy_of_not_drawing {i : Instr} (h : isDrawing i = false) (s : State) : drawnBy s i = s := by
  cases i
  case clear | fill | setPixel | drawRect | fillRect | drawChar | drawString | drawBitmap | drawNumber => cases h
  all_goals rfl

/-- Settles O44: an operation that draws nothing only sends its frames, and no frame drives RES. -/
theorem serialTouchesOnlySerialPins : Obligations.SerialTouchesOnlySerialPins := by
  intro i s t hi hexec
  obtain ⟨-, -, ht⟩ := exec_next hexec
  obtain rfl : t = sendFrames (framesOf s i) s := by rw [ht, ranTo, drawnBy_of_not_drawing hi]
  exact ⟨fun _ => rfl, rfl, apply_frames_res _ s.pins, rfl⟩

end Sys2Proof.Spec
end

section
/-! PROOFS. The reset pulse and its hazards (70_reset R160, R161): a Ready step sends whole frames and nothing else, so
the pulse of the reset sequence holds every write of RES and every delay, and its last event is the release. -/

namespace Sys2Proof.Spec
open Sys2Proof.Machine

/-- Once Ready, a step appends whole frames to the trace (70_reset R160, 40_serial R73). -/
theorem step_ready_trace {s t : State} (hphase : s.phase = .ready) (h : step s = .next t) :
    ∃ fs : List Frame, t.trace = s.trace ++ fs.flatMap frameEvents := by
  obtain ⟨-, ⟨hpower, -⟩ | ⟨-, -, rfl⟩ | ⟨-, _, _, i, -, -, hexec⟩⟩ := step_next h
  · rw [hphase] at hpower
    cases hpower
  · exact ⟨[], (List.append_nil _).symm⟩
  · obtain ⟨-, -, rfl⟩ := exec_next hexec
    exact ⟨_, ranTo_trace i _⟩

/-! ### The pulse, once -/

/-- Frames hold no write of RES and no delay (40_serial R70). -/
theorem resAndDelays_frames (fs : List Frame) : resAndDelays (fs.flatMap frameEvents) = [] := by
  refine List.filter_eq_nil_iff.2 fun e he => ?_
  match e with
  | .pin .res v => exact absurd he (res_not_mem_frames fs v)
  | .delay n => exact absurd he (delay_not_mem_frames fs n)
  | .pin .cs _ | .pin .dc _ | .pin .clk _ | .pin .dat _ => exact Bool.false_ne_true

/-- Frames sent after a trace leave its writes of RES and its delays as they are. -/
theorem resAndDelays_append_frames (es : List Event) (fs : List Frame) :
    resAndDelays (es ++ fs.flatMap frameEvents) = resAndDelays es := by
  calc resAndDelays (es ++ fs.flatMap frameEvents)
      = resAndDelays es ++ resAndDelays (fs.flatMap frameEvents) := List.filter_append ..
    _ = resAndDelays es := by rw [resAndDelays_frames, List.append_nil]

/-- Settles O50: the frames behind the pulse add no write of RES and no delay, nor do those of a further step; a legal
instance gives the two holds. -/
theorem resetPulseOnceWithItsHolds : Obligations.ResetPulseOnceWithItsHolds := by
  intro s hinv hlegal hphase
  obtain ⟨fs, htrace⟩ := hinv.readyTrace hphase
  obtain ⟨-, -, -, -, -, hpre, hlow, -⟩ := hlegal.facts
  refine ⟨?_, hpre, hlow, fun t hstep => ?_⟩
  · rw [htrace, resAndDelays_append_frames]
    rfl
  · obtain ⟨gs, hgs⟩ := step_ready_trace hphase hstep
    rw [hgs, resAndDelays_append_frames]

/-! ### The release -/

/-- The reset pulse up to its last write of RES, which releases the controller (70_reset R161). -/
def pulseBeforeRelease (p : Params) : List Event := (pulseEvents p).dropLast

theorem pulseEvents_eq_release (p : Params) : pulseEvents p = pulseBeforeRelease p ++ [.pin .res true] := rfl

theorem frames_pulseBeforeRelease (p : Params) : frames (pulseBeforeRelease p) = [] := rfl

theorem delay_mem_pulseBeforeRelease (p : Params) : Event.delay p.tLow ∈ pulseBeforeRelease p := by
  simp [pulseBeforeRelease, pulseEvents]

/-- A trace has only one last write of RES. -/
theorem last_res_unique {pre pre' post post' : List Event} {v v' : Bool} (hpost : ∀ w, Event.pin .res w ∉ post)
    (hpost' : ∀ w, Event.pin .res w ∉ post') (h : pre ++ .pin .res v :: post = pre' ++ .pin .res v' :: post') :
    pre = pre' ∧ v = v' := by
  obtain ⟨es, rfl, hrest⟩ | ⟨es, rfl, hrest⟩ := List.append_eq_append_iff.1 h
  · cases es with
    | nil => simpa using (List.cons.inj hrest).1
    | cons e es => exact absurd (by simp [(List.cons.inj hrest).2]) (hpost v')
  · cases es with
    | nil => simpa using (List.cons.inj hrest).1.symm
    | cons e es => exact absurd (by simp [(List.cons.inj hrest).2]) (hpost' v)

/-- Settles O55: the frames behind the pulse hold no write of RES, so the last one is the end of the pulse
(`last_res_unique`). -/
theorem noFrameBeforeResetIsReleased : Obligations.NoFrameBeforeResetIsReleased := by
  intro s pre post v hinv hsplit hpost
  cases hphase : s.phase with
  | powerOn =>
    obtain ⟨-, hblank⟩ := hinv.powerOnBlank hphase
    simp [hblank] at hsplit
  | ready =>
    obtain ⟨fs, htrace⟩ := hinv.readyTrace hphase
    rw [htrace, pulseEvents_eq_release, List.append_assoc, List.singleton_append] at hsplit
    obtain ⟨rfl, rfl⟩ := last_res_unique hpost (res_not_mem_frames _) hsplit.symm
    exact ⟨rfl, frames_pulseBeforeRelease _, delay_mem_pulseBeforeRelease _⟩

end Sys2Proof.Spec
end

section
/-! PROOFS. The encoding (30_encoding R54 to R60): decode and encode agree for requests and for commands on the wire, what
the decoder accepts is well formed, and the first byte of a command decides its length. -/

namespace Sys2Proof.Spec
open Sys2Proof.Machine Sys2Proof.Laws

/-- Settles O3: each constructor by its own round trip. -/
theorem decodeOfEncodeIsTheInstruction : Obligations.DecodeOfEncodeIsTheInstruction
  | .wrcmd b => RoundTrip.wrcmd b
  | .wrdat b => RoundTrip.wrdat b
  | .setContrast v => RoundTrip.setContrast v
  | .setDispMode sel => RoundTrip.setDispMode sel
  | .setDisplayOn on => RoundTrip.setDisplayOn on
  | .setColStart v => RoundTrip.setColStart v
  | .setAddrMode mode => RoundTrip.setAddrMode mode
  | .setColRange start stop => RoundTrip.setColRange start stop
  | .setPageRange start stop => RoundTrip.setPageRange start stop
  | .setPageStart page => RoundTrip.setPageStart page
  | .setStartLine line => RoundTrip.setStartLine line
  | .setSegRemap bit => RoundTrip.setSegRemap bit
  | .setMuxRatio ratio => RoundTrip.setMuxRatio ratio
  | .setComScan bit => RoundTrip.setComScan bit
  | .setOffset offset => RoundTrip.setOffset offset
  | .setComPins seq remap => RoundTrip.setComPins seq remap
  | .setClock divide freq => RoundTrip.setClock divide freq
  | .setPrecharge phase1 phase2 => RoundTrip.setPrecharge phase1 phase2
  | .setVcomh sel => RoundTrip.setVcomh sel
  | .setChargePump enable => RoundTrip.setChargePump enable
  | .clear => RoundTrip.clear
  | .fill b => RoundTrip.fill b
  | .setPixel x y color => RoundTrip.setPixel x y color
  | .drawRect x y w h color => RoundTrip.drawRect x y w h color
  | .fillRect x y w h color => RoundTrip.fillRect x y w h color
  | .drawChar x y ch => RoundTrip.drawChar x y ch
  | .drawString x y t => RoundTrip.drawString x y t
  | .drawBitmap x y w h src => RoundTrip.drawBitmap x y w h src
  | .drawNumber x y value zeroFill => RoundTrip.drawNumber x y value zeroFill
  | .flush => RoundTrip.flush
  | .wireContrast v => RoundTrip.wireContrast v
  | .wireDispMode sel => RoundTrip.wireDispMode sel
  | .wireDisplayOn o => RoundTrip.wireDisplayOn o
  | .wireColStart l h => RoundTrip.wireColStart l h
  | .wireAddrMode m => RoundTrip.wireAddrMode m
  | .wireColRange start stop => RoundTrip.wireColRange start stop
  | .wirePageRange start stop => RoundTrip.wirePageRange start stop
  | .wirePageStart p => RoundTrip.wirePageStart p
  | .wireStartLine l => RoundTrip.wireStartLine l
  | .wireSegRemap b => RoundTrip.wireSegRemap b
  | .wireMuxRatio r => RoundTrip.wireMuxRatio r
  | .wireComScan b => RoundTrip.wireComScan b
  | .wireOffset o => RoundTrip.wireOffset o
  | .wireComPins r seq => RoundTrip.wireComPins r seq
  | .wireClock f d => RoundTrip.wireClock f d
  | .wirePrecharge q p => RoundTrip.wirePrecharge q p
  | .wireVcomh c => RoundTrip.wireVcomh c
  | .wireChargePump e => RoundTrip.wireChargePump e

/-- Settles O1: the table words by evaluation of the decoder, the three requests by their round trips. -/
theorem tableWordsDecode : Obligations.TableWordsDecode :=
  ⟨by decide, by decide, RoundTrip.setComPins 1 0 rfl, RoundTrip.setPixel 5 (-3) 1 rfl,
    RoundTrip.drawNumber 0 0 65535 1 rfl, by decide, by decide, by decide⟩

/-! ### Requests -/

/-- `encode i` is the request of code `n` with the operands `ops`, its text cut at the terminator. -/
def EncodesTo (i : Instr) (n : Nat) (ops : List Operand) : Prop :=
  encode i = .request (BitVec.ofNat 8 n) (ops.map cutText)

section Take
variable {op : Byte} {ops : List Operand} {i : Instr} {n : Nat}

theorem encodesTo_of_takeU8 {f : Byte → Instr} (h : takeU8 op f ops = .ok i)
    (hf : ∀ v, EncodesTo (f v) n [.u8 v]) : EncodesTo i n ops := by
  unfold takeU8 at h
  split at h
  · exact Except.ok.inj h ▸ hf _
  · cases h

theorem encodesTo_of_takeU8U8 {f : Byte → Byte → Instr} (h : takeU8U8 op f ops = .ok i)
    (hf : ∀ v v', EncodesTo (f v v') n [.u8 v, .u8 v']) : EncodesTo i n ops := by
  unfold takeU8U8 at h
  split at h
  · exact Except.ok.inj h ▸ hf _ _
  · cases h

theorem encodesTo_of_takeU2 {f : U2 → Instr} (h : takeU2 op f ops = .ok i)
    (hf : ∀ v, EncodesTo (f v) n [.u2 v]) : EncodesTo i n ops := by
  unfold takeU2 at h
  split at h
  · exact Except.ok.inj h ▸ hf _
  · cases h

theorem encodesTo_of_takeBit {f : Bit → Instr} (h : takeBit op f ops = .ok i)
    (hf : ∀ v, EncodesTo (f v) n [.bit v]) : EncodesTo i n ops := by
  unfold takeBit at h
  split at h
  · exact Except.ok.inj h ▸ hf _
  · cases h

theorem encodesTo_of_takeBitBit {f : Bit → Bit → Instr} (h : takeBitBit op f ops = .ok i)
    (hf : ∀ v v', EncodesTo (f v v') n [.bit v, .bit v']) : EncodesTo i n ops := by
  unfold takeBitBit at h
  split at h
  · exact Except.ok.inj h ▸ hf _ _
  · cases h

theorem encodesTo_of_takeNone {j : Instr} (h : takeNone op j ops = .ok i)
    (hf : EncodesTo j n []) : EncodesTo i n ops := by
  unfold takeNone at h
  split at h
  · exact Except.ok.inj h ▸ hf
  · cases h

theorem encodesTo_of_takePixel {f : Int → Int → Bit → Instr} (h : takePixel op f ops = .ok i)
    (hf : ∀ x y c, EncodesTo (f x y c) n [.int x, .int y, .bit c]) : EncodesTo i n ops := by
  unfold takePixel at h
  split at h
  · exact Except.ok.inj h ▸ hf _ _ _
  · cases h

theorem encodesTo_of_takeBox {f : Int → Int → Int → Int → Bit → Instr} (h : takeBox op f ops = .ok i)
    (hf : ∀ x y w h c, EncodesTo (f x y w h c) n [.int x, .int y, .int w, .int h, .bit c]) : EncodesTo i n ops := by
  unfold takeBox at h
  split at h
  · exact Except.ok.inj h ▸ hf _ _ _ _ _
  · cases h

theorem encodesTo_of_takeChar {f : Int → Int → Byte → Instr} (h : takeChar op f ops = .ok i)
    (hf : ∀ x y ch, EncodesTo (f x y ch) n [.int x, .int y, .u8 ch]) : EncodesTo i n ops := by
  unfold takeChar at h
  split at h
  · exact Except.ok.inj h ▸ hf _ _ _
  · cases h

/-- Of the text before the terminator: `EncodesTo` cuts the presented text where `takeText` does (log 6). -/
theorem encodesTo_of_takeText {f : Int → Int → List Byte → Instr} (h : takeText op f ops = .ok i)
    (hf : ∀ x y t, EncodesTo (f x y (t.takeWhile (· ≠ 0))) n [.int x, .int y, .text t]) : EncodesTo i n ops := by
  unfold takeText at h
  split at h
  · exact Except.ok.inj h ▸ hf _ _ _
  · cases h

theorem encodesTo_of_takeBitmap {f : Int → Int → Int → Int → List Byte → Instr} (h : takeBitmap op f ops = .ok i)
    (hf : ∀ x y w h src, EncodesTo (f x y w h src) n [.int x, .int y, .int w, .int h, .bytes src]) :
    EncodesTo i n ops := by
  unfold takeBitmap at h
  split at h
  · exact Except.ok.inj h ▸ hf _ _ _ _ _
  · cases h

theorem encodesTo_of_takeNumber {f : Int → Int → U16 → Bit → Instr} (h : takeNumber op f ops = .ok i)
    (hf : ∀ x y v z, EncodesTo (f x y v z) n [.int x, .int y, .u16 v, .bit z]) : EncodesTo i n ops := by
  unfold takeNumber at h
  split at h
  · exact Except.ok.inj h ▸ hf _ _ _ _
  · cases h

end Take

/-- Every row of the table of 30_encoding R57 takes the operands its encoding writes. -/
theorem encodesTo_of_assembleRequest {op : Byte} {ops : List Operand} {i : Instr}
    (h : assembleRequest op ops = .ok i) : EncodesTo i op.toNat ops := by
  unfold assembleRequest at h
  split at h <;> rename_i hop
  · exact hop ▸ encodesTo_of_takeU8 h fun _ => rfl
  · exact hop ▸ encodesTo_of_takeU8 h fun _ => rfl
  · exact hop ▸ encodesTo_of_takeU8 h fun _ => rfl
  · exact hop ▸ encodesTo_of_takeU2 h fun _ => rfl
  · exact hop ▸ encodesTo_of_takeBit h fun _ => rfl
  · exact hop ▸ encodesTo_of_takeU8 h fun _ => rfl
  · exact hop ▸ encodesTo_of_takeU2 h fun _ => rfl
  · exact hop ▸ encodesTo_of_takeU8U8 h fun _ _ => rfl
  · exact hop ▸ encodesTo_of_takeU8U8 h fun _ _ => rfl
  · exact hop ▸ encodesTo_of_takeU8 h fun _ => rfl
  · exact hop ▸ encodesTo_of_takeU8 h fun _ => rfl
  · exact hop ▸ encodesTo_of_takeBit h fun _ => rfl
  · exact hop ▸ encodesTo_of_takeU8 h fun _ => rfl
  · exact hop ▸ encodesTo_of_takeBit h fun _ => rfl
  · exact hop ▸ encodesTo_of_takeU8 h fun _ => rfl
  · exact hop ▸ encodesTo_of_takeBitBit h fun _ _ => rfl
  · exact hop ▸ encodesTo_of_takeU8U8 h fun _ _ => rfl
  · exact hop ▸ encodesTo_of_takeU8U8 h fun _ _ => rfl
  · exact hop ▸ encodesTo_of_takeU2 h fun _ => rfl
  · exact hop ▸ encodesTo_of_takeBit h fun _ => rfl
  · exact hop ▸ encodesTo_of_takeNone h rfl
  · exact hop ▸ encodesTo_of_takeU8 h fun _ => rfl
  · exact hop ▸ encodesTo_of_takePixel h fun _ _ _ => rfl
  · exact hop ▸ encodesTo_of_takeBox h fun _ _ _ _ _ => rfl
  · exact hop ▸ encodesTo_of_takeBox h fun _ _ _ _ _ => rfl
  · exact hop ▸ encodesTo_of_takeChar h fun _ _ _ => rfl
  · exact hop ▸ encodesTo_of_takeText h fun _ _ _ => rfl
  · exact hop ▸ encodesTo_of_takeBitmap h fun _ _ _ _ _ => rfl
  · exact hop ▸ encodesTo_of_takeNumber h fun _ _ _ _ => rfl
  · exact hop ▸ encodesTo_of_takeNone h rfl
  · cases h

/-- An instruction that passes the check is well formed, and the check answers it as it is (30_encoding R58). -/
theorem checked_ok {i j : Instr} (h : i.checked = .ok j) : j.wf = true ∧ i = j := by
  unfold Instr.checked at h
  split at h
  · obtain rfl := Except.ok.inj h
    exact ⟨by rw [Instr.wf, ‹i.illFormed = none›]; rfl, rfl⟩
  · cases h

/-- A decoded request was assembled by its row and passed the check. -/
theorem decodeRequest_ok {op : Byte} {ops : List Operand} {i : Instr} (h : decodeRequest op ops = .ok i) :
    assembleRequest op ops = .ok i ∧ i.wf = true := by
  unfold decodeRequest at h
  split at h
  · rename_i j hj
    obtain ⟨hwf, rfl⟩ := checked_ok h
    exact ⟨hj, hwf⟩
  · cases h

/-- Settles O5: the row that assembled the request is the row that encodes its instruction. -/
theorem requestDecodesOnlyFromItsEncoding : Obligations.RequestDecodesOnlyFromItsEncoding := by
  intro op ops i h
  have henc : EncodesTo i op.toNat ops := encodesTo_of_assembleRequest (decodeRequest_ok h).1
  rwa [EncodesTo, BitVec.ofNat_toNat, BitVec.setWidth_eq] at henc

/-! ### Commands on the wire -/

/-- `i` is a well-formed wire row and `bs` are its bytes. -/
abbrev IsRow (i : Instr) (bs : List Byte) : Prop := i.wf = true ∧ encode i = .wire bs

/-- `bs` begins with the bytes of row `i`, and `rest` follows them. -/
def BeginsWithRow (bs : List Byte) (i : Instr) (rest : List Byte) : Prop := ∃ front, bs = front ++ rest ∧ IsRow i front

section Row
variable {b : Byte} {bs rest : List Byte} {i : Instr}

/-- A row of one byte. -/
theorem beginsWithRow_of_ok {j : Instr} (h : Except.ok (ε := Reject) (j, bs) = .ok (i, rest)) (hj : IsRow j [b]) :
    BeginsWithRow (b :: bs) i rest := by
  obtain ⟨rfl, rfl⟩ := Prod.mk.inj (Except.ok.inj h)
  exact ⟨[b], rfl, hj⟩

/-- A row of an opcode and one parameter. -/
theorem beginsWithRow_of_wireParam {f : Byte → Option Instr} (h : wireParam f bs = .ok (i, rest))
    (hf : ∀ v, ∀ j ∈ f v, IsRow j [b, v]) : BeginsWithRow (b :: bs) i rest := by
  unfold wireParam at h
  split at h
  · cases h
  · rename_i v vs
    split at h
    · obtain ⟨rfl, rfl⟩ := Prod.mk.inj (Except.ok.inj h)
      exact ⟨[b, v], rfl, hf v _ ‹_›⟩
    · cases h

/-- A row of an opcode and two parameters. -/
theorem beginsWithRow_of_wireParams {f : Byte → Byte → Instr} (h : wireParams f bs = .ok (i, rest))
    (hf : ∀ v v', IsRow (f v v') [b, v, v']) : BeginsWithRow (b :: bs) i rest := by
  unfold wireParams at h
  split at h
  · rename_i v v' vs
    obtain ⟨rfl, rfl⟩ := Prod.mk.inj (Except.ok.inj h)
    exact ⟨[b, v, v'], rfl, hf v v'⟩
  · cases h

end Row

/-- The two halves of a byte make it up. -/
theorem append_nibbles : ∀ b : Byte, field b 4 4 ++ field b 0 4 = b := by decide

/-- Both halves of a column start (30_encoding R54, R55). -/
theorem isRow_colStart {b : Byte} (hb : field b 4 4 = 0b0000#4) :
    ∀ v, ∀ j ∈ wireColHigh (field b 0 4) v, IsRow j [b, v] := by
  intro v j hj
  obtain ⟨hv, hrow⟩ := Option.ite_none_right_eq_some.1 hj
  obtain rfl := Option.some.inj hrow
  refine ⟨rfl, ?_⟩
  simp only [encode, Instr.wireBytes, ← hb, ← hv, append_nibbles]

theorem isRow_addrMode : ∀ v, ∀ j ∈ wireAddrParam v, IsRow j [0x20, v] := by decide

theorem isRow_chargePump : ∀ v, ∀ j ∈ wireChargePumpParam v, IsRow j [0x8D, v] := by decide

theorem isRow_comPins : ∀ v, ∀ j ∈ wireComPinsParam v, IsRow j [0xDA, v] := by decide

theorem isRow_vcomh : ∀ v, ∀ j ∈ wireVcomhParam v, IsRow j [0xDB, v] := by decide

theorem isRow_startLine : ∀ b, field b 6 2 = 0b01#2 → IsRow (.wireStartLine (field b 0 6)) [b] := by decide

theorem isRow_segRemap : ∀ b, field b 1 7 = 0b1010000#7 → IsRow (.wireSegRemap (field b 0 1)) [b] := by decide

theorem isRow_dispMode : ∀ b, field b 2 6 = 0b101001#6 → IsRow (.wireDispMode (field b 0 2)) [b] := by decide

theorem isRow_displayOn : ∀ b, field b 1 7 = 0b1010111#7 → IsRow (.wireDisplayOn (field b 0 1)) [b] := by decide

theorem isRow_pageStart : ∀ b, field b 4 4 = 0b1011#4 → IsRow (.wirePageStart (field b 0 4)) [b] := by decide

theorem isRow_comScan : ∀ b, b &&& 0xF7 = 0xC0 → IsRow (.wireComScan (field b 3 1)) [b] := by decide

theorem isRow_clock : ∀ v, IsRow (.wireClock (field v 4 4) (field v 0 4)) [0xD5, v] := by decide

theorem isRow_precharge : ∀ v, IsRow (.wirePrecharge (field v 4 4) (field v 0 4)) [0xD9, v] := by decide

/-- A parameter that every byte fits. -/
theorem isRow_of_some {f : Byte → Instr} {b : Byte} (hf : ∀ v, IsRow (f v) [b, v]) :
    ∀ v, ∀ j ∈ some (f v), IsRow j [b, v] :=
  fun v _ hj => Option.some.inj hj ▸ hf v

/-- What is decoded from the front of a byte list is a row whose bytes stand there: one case per row of the map of
30_encoding R54. -/
theorem beginsWithRow_of_decodeCommand {bs rest : List Byte} {i : Instr} (h : decodeCommand bs = .ok (i, rest)) :
    BeginsWithRow bs i rest := by
  cases bs with
  | nil => cases h
  | cons b bs =>
    rw [decodeCommand] at h
    obtain ⟨hb, h⟩ | ⟨-, h⟩ := ite_eq_iff.1 h
    · exact beginsWithRow_of_wireParam h (isRow_colStart hb)
    obtain ⟨hb, h⟩ | ⟨-, h⟩ := ite_eq_iff.1 h
    · exact hb ▸ beginsWithRow_of_wireParam h isRow_addrMode
    obtain ⟨hb, h⟩ | ⟨-, h⟩ := ite_eq_iff.1 h
    · exact hb ▸ beginsWithRow_of_wireParams h fun _ _ => ⟨rfl, rfl⟩
    obtain ⟨hb, h⟩ | ⟨-, h⟩ := ite_eq_iff.1 h
    · exact hb ▸ beginsWithRow_of_wireParams h fun _ _ => ⟨rfl, rfl⟩
    obtain ⟨hb, h⟩ | ⟨-, h⟩ := ite_eq_iff.1 h
    · exact beginsWithRow_of_ok h (isRow_startLine b hb)
    obtain ⟨hb, h⟩ | ⟨-, h⟩ := ite_eq_iff.1 h
    · exact hb ▸ beginsWithRow_of_wireParam h (isRow_of_some fun _ => ⟨rfl, rfl⟩)
    obtain ⟨hb, h⟩ | ⟨-, h⟩ := ite_eq_iff.1 h
    · exact hb ▸ beginsWithRow_of_wireParam h isRow_chargePump
    obtain ⟨hb, h⟩ | ⟨-, h⟩ := ite_eq_iff.1 h
    · exact beginsWithRow_of_ok h (isRow_segRemap b hb)
    obtain ⟨hb, h⟩ | ⟨-, h⟩ := ite_eq_iff.1 h
    · exact beginsWithRow_of_ok h (isRow_dispMode b hb)
    obtain ⟨hb, h⟩ | ⟨-, h⟩ := ite_eq_iff.1 h
    · exact hb ▸ beginsWithRow_of_wireParam h (isRow_of_some fun _ => ⟨rfl, rfl⟩)
    obtain ⟨hb, h⟩ | ⟨-, h⟩ := ite_eq_iff.1 h
    · exact beginsWithRow_of_ok h (isRow_displayOn b hb)
    obtain ⟨hb, h⟩ | ⟨-, h⟩ := ite_eq_iff.1 h
    · exact beginsWithRow_of_ok h (isRow_pageStart b hb)
    obtain ⟨hb, h⟩ | ⟨-, h⟩ := ite_eq_iff.1 h
    · exact beginsWithRow_of_ok h (isRow_comScan b hb)
    obtain ⟨hb, h⟩ | ⟨-, h⟩ := ite_eq_iff.1 h
    · exact hb ▸ beginsWithRow_of_wireParam h (isRow_of_some fun _ => ⟨rfl, rfl⟩)
    obtain ⟨hb, h⟩ | ⟨-, h⟩ := ite_eq_iff.1 h
    · exact hb ▸ beginsWithRow_of_wireParam h (isRow_of_some isRow_clock)
    obtain ⟨hb, h⟩ | ⟨-, h⟩ := ite_eq_iff.1 h
    · exact hb ▸ beginsWithRow_of_wireParam h (isRow_of_some isRow_precharge)
    obtain ⟨hb, h⟩ | ⟨-, h⟩ := ite_eq_iff.1 h
    · exact hb ▸ beginsWithRow_of_wireParam h isRow_comPins
    obtain ⟨hb, h⟩ | ⟨-, h⟩ := ite_eq_iff.1 h
    · exact hb ▸ beginsWithRow_of_wireParam h isRow_vcomh
    cases h

/-- A command presented on its own is a row and nothing else. -/
theorem isRow_of_decodeWire {bs : List Byte} {i : Instr} (h : decodeWire bs = .ok i) : IsRow i bs := by
  unfold decodeWire at h
  split at h
  · rename_i j hj
    obtain rfl := Except.ok.inj h
    obtain ⟨front, rfl, hrow⟩ := beginsWithRow_of_decodeCommand hj
    rwa [List.append_nil]
  · cases h
  · cases h

/-- Settles O4: a request passed the check, a command is a row of the table. -/
theorem decodedIsWellFormed : Obligations.DecodedIsWellFormed
  | .request _ _, _, h => (decodeRequest_ok h).2
  | .wire _, _, h => (isRow_of_decodeWire h).1

/-- Settles O6: the bytes are those of the row. -/
theorem wireDecodesOnlyFromItsBytes : Obligations.WireDecodesOnlyFromItsBytes :=
  fun _ _ h => (isRow_of_decodeWire h).2

/-! ### The length of a command -/

theorem commandLength_dispMode : ∀ sel : BitVec 2, commandLength (0b101001#6 ++ sel) = 1 := by decide

theorem commandLength_displayOn : ∀ o : BitVec 1, commandLength (0b1010111#7 ++ o) = 1 := by decide

theorem commandLength_colLow : ∀ l : BitVec 4, commandLength (0b0000#4 ++ l) = 1 := by decide

theorem commandLength_colHigh : ∀ h : BitVec 4, commandLength (0b0001#4 ++ h) = 1 := by decide

theorem commandLength_pageStart : ∀ p : BitVec 4, commandLength (0b1011#4 ++ p) = 1 := by decide

theorem commandLength_startLine : ∀ l : BitVec 6, commandLength (0b01#2 ++ l) = 1 := by decide

theorem commandLength_segRemap : ∀ b : BitVec 1, commandLength (0b1010000#7 ++ b) = 1 := by decide

theorem commandLength_comScan : ∀ b : BitVec 1, commandLength (0b1100#4 ++ b ++ 0b000#3) = 1 := by decide

/-- Settles O8: the opcode rows have a fixed first byte; the one-byte rows are single bytes of the map, whatever their
field, and so are the two halves of a column start. A request has no wire bytes. -/
theorem firstByteDecidesCommandLength : Obligations.FirstByteDecidesCommandLength := by
  rintro i - hbytes
  cases i
  case wireColStart l h => exact .inr ⟨l, h, _, _, rfl, rfl, commandLength_colLow l, commandLength_colHigh h⟩
  case wireDispMode sel => exact .inl ⟨_, _, rfl, commandLength_dispMode sel⟩
  case wireDisplayOn o => exact .inl ⟨_, _, rfl, commandLength_displayOn o⟩
  case wirePageStart p => exact .inl ⟨_, _, rfl, commandLength_pageStart p⟩
  case wireStartLine l => exact .inl ⟨_, _, rfl, commandLength_startLine l⟩
  case wireSegRemap b => exact .inl ⟨_, _, rfl, commandLength_segRemap b⟩
  case wireComScan b => exact .inl ⟨_, _, rfl, commandLength_comScan b⟩
  case wireContrast | wireAddrMode | wireColRange | wirePageRange | wireMuxRatio | wireOffset | wireComPins | wireClock
      | wirePrecharge | wireVcomh | wireChargePump => exact .inl ⟨_, _, rfl, rfl⟩
  all_goals exact absurd rfl hbytes

end Sys2Proof.Spec
end

section
/-! PROOFS. The whole machine: the invariant at block reset and after every step, the phase and the instance, and the trace
of a step as a receiver reads it (10_state R12, R13, R19, R21, R23; 40_serial R73). -/

namespace Sys2Proof.Spec
open Sys2Proof.Machine

/-! ### The invariant -/

/-- Settles O51: at block reset FB and the trace are empty and every latch is unset. -/
theorem invariantAtReset : Obligations.InvariantAtReset where
  fbWf := Memory.wf_nil
  fbIn := nofun
  pinsOfTrace := rfl
  powerOnBlank := fun _ => ⟨rfl, rfl⟩
  readyTrace := nofun

/-- The reset sequence clears FB inside its bounds and appends the pulse and the bring-up to an empty trace
(70_reset R151). -/
theorem inv_resetSequence {s : State} (hinv : s.Inv) (hphase : s.phase = .powerOn) : (resetSequence s).Inv := by
  obtain ⟨-, hblank⟩ := hinv.powerOnBlank hphase
  refine ⟨?_, ?_, ?_, fun hpower => ?_, fun _ => ⟨[], ?_⟩⟩
  · rw [resetSequence_fb]
    exact wf_fillBytes hinv.fbWf _ _
  · rw [State.fbInside, resetSequence_fb, resetSequence_inst]
    exact below_fillBytes hinv.fbIn _
  · rw [resetSequence_pins, resetSequence_trace, hinv.pinsOfTrace, ← List.foldl_append]
  · rw [resetSequence_phase] at hpower
    cases hpower
  · rw [resetSequence_trace, hblank, resetSequence_inst, List.append_nil, List.nil_append]

/-- An instruction that runs keeps FB canonical and in bounds and appends whole frames, which drive the latches. -/
theorem inv_ranTo (i : Instr) {s : State} (hs : s.accepting) (hinv : s.Inv) : (ranTo i s).Inv := by
  obtain ⟨hlegal, hphase⟩ := hs
  obtain ⟨-, -, -, hH, -⟩ := hlegal.facts
  obtain ⟨fs, htrace⟩ := hinv.readyTrace hphase
  refine ⟨?_, ?_, ?_, fun hpower => ?_, fun _ => ⟨fs ++ framesOf s i, ?_⟩⟩
  · rw [ranTo_fb]
    exact wf_drawnBy i s hH hinv.fbWf
  · rw [State.fbInside, ranTo_fb, ranTo_inst]
    exact below_drawnBy i s hH hinv.fbWf hinv.fbIn
  · rw [ranTo_pins, ranTo_trace, hinv.pinsOfTrace, ← List.foldl_append]
  · rw [ranTo_phase, hphase] at hpower
    cases hpower
  · rw [ranTo_trace, ranTo_inst, htrace]
    simp only [List.flatMap_append, List.append_assoc]

/-- The invariant does not speak of the port. -/
theorem inv_of_port {s : State} (hinv : s.Inv) (rest : List PortItem) : { s with port := rest }.Inv :=
  ⟨hinv.fbWf, hinv.fbIn, hinv.pinsOfTrace, hinv.powerOnBlank, hinv.readyTrace⟩

/-- Settles O52: a step is the reset sequence (`inv_resetSequence`), nothing, or an instruction (`inv_ranTo`). -/
theorem stepKeepsTheInvariant : Obligations.StepKeepsTheInvariant := by
  intro s t hinv hstep
  obtain ⟨-, ⟨hphase, -, rfl⟩ | ⟨-, -, rfl⟩ | ⟨-, _, rest, i, -, -, hexec⟩⟩ := step_next hstep
  · exact inv_resetSequence hinv hphase
  · exact hinv
  · obtain ⟨hs, -, rfl⟩ := exec_next hexec
    exact inv_ranTo i hs (inv_of_port hinv rest)

/-! ### The phase, the instance and RES -/

/-- Settles O48: the reset sequence ends in Ready, and no instruction changes the phase or the instance. -/
theorem readyForEver : Obligations.ReadyForEver := by
  intro s t hstep
  obtain ⟨-, ⟨-, -, rfl⟩ | ⟨hphase, -, rfl⟩ | ⟨hphase, _, _, i, -, -, hexec⟩⟩ := step_next hstep
  · exact ⟨resetSequence_inst s, resetSequence_phase s⟩
  · exact ⟨rfl, hphase⟩
  · obtain ⟨-, -, rfl⟩ := exec_next hexec
    exact ⟨ranTo_inst i _, (ranTo_phase i _).trans hphase⟩

/-- Once Ready, a step leaves RES as it is (40_serial R70). -/
theorem step_ready_res {s t : State} (hphase : s.phase = .ready) (hstep : step s = .next t) :
    t.pins.res = s.pins.res := by
  obtain ⟨-, ⟨hpower, -⟩ | ⟨-, -, rfl⟩ | ⟨-, _, _, i, -, -, hexec⟩⟩ := step_next hstep
  · rw [hphase] at hpower
    cases hpower
  · rfl
  · obtain ⟨-, -, rfl⟩ := exec_next hexec
    rw [ranTo_pins, apply_frames_res]

/-- Settles O49: what a Ready step appends is whole frames (`step_ready_trace`), which hold no write of RES and no
delay. -/
theorem resAndDelayOnlyInTheResetSequence : Obligations.ResAndDelayOnlyInTheResetSequence := by
  intro s t hphase hstep
  obtain ⟨fs, htrace⟩ := step_ready_trace hphase hstep
  exact ⟨step_ready_res hphase hstep, _, htrace, res_not_mem_frames fs, delay_not_mem_frames fs⟩

/-! ### Reading the trace back -/

section Trace
variable {s : State} {fs : List Frame} (htrace : s.trace = pulseEvents s.inst ++ fs.flatMap frameEvents)
include htrace

/-- A trace of the pulse and whole frames reads back as those frames (40_serial R73). -/
theorem frames_trace : frames s.trace = fs := by
  rw [htrace, frames, cutFrames_trace _ _ _ (Nat.le_refl _)]

/-- All that lies outside the frames is the pulse (40_serial R73, 70_reset R160). -/
theorem outsideFrames_trace : outsideFrames s.trace = pulse s.inst := by
  rw [htrace, outsideFrames, cutFrames_trace _ _ _ (Nat.le_refl _)]
  rfl

end Trace

/-- Settles O53: the trace of the invariant is the pulse and whole frames, the bring-up's first, so it reads back as
them. -/
theorem traceReadsBackAsFrames : Obligations.TraceReadsBackAsFrames := by
  intro s hinv hphase
  obtain ⟨fs, htrace⟩ := hinv.readyTrace hphase
  refine ⟨outsideFrames_trace htrace, ?_, ?_⟩
  · rw [frames_trace htrace, htrace]
    rfl
  · rw [frames_trace htrace, bringupFrames, configBytes_eq_bringupBytes]
    rfl

/-- Settles O54: old trace and new trace are the pulse and whole frames, and the new events are frames alone. -/
theorem receiverSeesNewFramesAppended : Obligations.ReceiverSeesNewFramesAppended := by
  intro s t hinv hphase hstep
  obtain ⟨fs, htrace⟩ := hinv.readyTrace hphase
  obtain ⟨gs, hgrown⟩ := step_ready_trace hphase hstep
  have hboth : t.trace = pulseEvents t.inst ++ (bringupFrames ++ fs ++ gs).flatMap frameEvents := by
    rw [hgrown, htrace, (readyForEver s t hstep).1, List.flatMap_append (xs := bringupFrames ++ fs), List.append_assoc]
  exact ⟨_, hgrown, by rw [frames_trace hboth, frames_trace htrace, frames_frameEvents], outsideFrames_frameEvents gs⟩

end Sys2Proof.Spec
end

section
/-! PROOFS. Block reset, steps and refusals (10_state R23, 60_exceptions R136): when the block refuses a request, or the
whole instance, and that it refuses nothing else. -/

namespace Sys2Proof.Spec
open Sys2Proof.Machine

/-- Settles O10: `State.reset` read field by field; in PowerOn a byte of FB is the free value of log 2. -/
theorem blockResetValues : Obligations.BlockResetValues := ⟨rfl, rfl, rfl, fun _ => rfl⟩

/-! ### Refusals -/

/-- A step on an instance the spec does not build is refused (60_exceptions R136). -/
theorem step_of_instanceRefusal {s : State} {r : Refusal} (h : instanceRefusal s.inst = some r) :
    step s = .refused r := by
  simp only [step, h]

/-- What refuses every request refuses every instruction. -/
theorem exec_of_requestRefusal {s : State} {r : Refusal} (h : requestRefusal s = some r) (i : Instr) :
    exec i s = .refused r := by
  rw [exec_eq, h]

theorem requestRefusal_of_instanceRefusal {s : State} {r : Refusal} (h : instanceRefusal s.inst = some r) :
    requestRefusal s = some r := by
  simp only [requestRefusal, h]

theorem requestRefusal_powerOn {s : State} (hlegal : instLegal s.inst) (hphase : s.phase = .powerOn) :
    requestRefusal s = some .requestInPowerOn := by
  simp only [requestRefusal, hlegal, hphase, if_true]

theorem step_powerOn_request {s : State} (hlegal : instLegal s.inst) (hphase : s.phase = .powerOn)
    (hport : s.port ≠ []) : step s = .refused .requestInPowerOn := by
  obtain ⟨item, rest, hport⟩ := List.exists_cons_of_ne_nil hport
  simp only [step, hlegal, hphase, hport]

/-- Settles O12: a legal instance in PowerOn refuses whatever is presented. -/
theorem requestInPowerOnRefused : Obligations.RequestInPowerOnRefused := fun _ hlegal hphase =>
  ⟨step_powerOn_request hlegal hphase, exec_of_requestRefusal (requestRefusal_powerOn hlegal hphase)⟩

/-! ### Instances -/

section Instance
variable {p : Params}

theorem instanceRefusal_wiringFour (h : p.wiring = .four) : instanceRefusal p = some .wiringFour := if_pos h

theorem instanceRefusal_dimensions (hfive : p.wiring = .five)
    (h : p.W = 0 ∨ p.W % 8 ≠ 0 ∨ p.H = 0 ∨ p.H % 8 ≠ 0 ∨ 16 < p.NP) :
    instanceRefusal p = some .illegalDimensions := by
  simp only [instanceRefusal, hfive, reduceCtorEq, if_false, if_pos h]

variable (hfive : p.wiring = .five) (hdim : ¬ (p.W = 0 ∨ p.W % 8 ≠ 0 ∨ p.H = 0 ∨ p.H % 8 ≠ 0 ∨ 16 < p.NP))
include hfive hdim

theorem instanceRefusal_holdTimes (h : p.tPre < 10 ∨ p.tLow < 60) : instanceRefusal p = some .illegalHoldTimes := by
  simp only [instanceRefusal, hfive, reduceCtorEq, if_false, if_neg hdim, if_pos h]

variable (hholds : ¬ (p.tPre < 10 ∨ p.tLow < 60))
include hholds

theorem instanceRefusal_glyphTable (h : p.glyph.length ≠ 480) : instanceRefusal p = some .illegalGlyphTable := by
  simp only [instanceRefusal, hfive, reduceCtorEq, if_false, if_neg hdim, if_neg hholds, if_pos h]

/-- An instance inside every limit is one the spec builds (00_scope R7). -/
theorem instLegal_of_limits (h : p.glyph.length = 480) : instLegal p := by
  simp only [instLegal, instanceRefusal, hfive, reduceCtorEq, if_false, if_neg hdim, if_neg hholds,
    if_neg (not_not.2 h)]

end Instance

/-- Settles O13: the wiring is checked first, the dimensions next, and a refused instance refuses every step and every
request. -/
theorem unbuiltInstanceRefused : Obligations.UnbuiltInstanceRefused := by
  intro s
  have hall {r : Refusal} (h : instanceRefusal s.inst = some r) :
      step s = .refused r ∧ ∀ i, exec i s = .refused r :=
    ⟨step_of_instanceRefusal h, exec_of_requestRefusal (requestRefusal_of_instanceRefusal h)⟩
  exact ⟨fun hfour => hall (instanceRefusal_wiringFour hfour),
    fun hfive hdim => hall (instanceRefusal_dimensions hfive (by tauto))⟩

/-- Settles O14: each limit is checked after those before it, and an instance that passes them all is legal. -/
theorem instanceLimitsRefused : Obligations.InstanceLimitsRefused := by
  intro s hfive hW hW8 hH hH8
  refine ⟨fun hpages => step_of_instanceRefusal (instanceRefusal_dimensions hfive (by tauto)), fun hpages => ?_⟩
  have hdim : ¬ (s.inst.W = 0 ∨ s.inst.W % 8 ≠ 0 ∨ s.inst.H = 0 ∨ s.inst.H % 8 ≠ 0 ∨ 16 < s.inst.NP) := by
    unfold Params.NP
    omega
  refine ⟨fun hholds => step_of_instanceRefusal (instanceRefusal_holdTimes hfive hdim hholds), fun hpre hlow => ?_⟩
  have hholds : ¬ (s.inst.tPre < 10 ∨ s.inst.tLow < 60) := by omega
  exact ⟨fun hglyph => step_of_instanceRefusal (instanceRefusal_glyphTable hfive hdim hholds hglyph),
    fun hglyph hphase => ⟨instLegal_of_limits hfive hdim hholds hglyph, hphase⟩⟩

/-! ### What an accepting state answers -/

theorem step_of_decodeItem_ok {s : State} {item : PortItem} {rest : List PortItem} {i : Instr} (hs : s.accepting)
    (hport : s.port = item :: rest) (hdec : decodeItem item = .ok i) : step s = exec i { s with port := rest } := by
  obtain ⟨hlegal, hready⟩ := hs
  simp only [step, hlegal, hready, hport, hdec]

theorem step_ready_idle {s : State} (hs : s.accepting) (hport : s.port = []) : step s = .next s := by
  obtain ⟨hlegal, hready⟩ := hs
  simp only [step, hlegal, hready, hport]

/-- Settles O15: the three answers of a step in Ready. -/
theorem stepRunsTheDecodedInstruction : Obligations.StepRunsTheDecodedInstruction := fun _ hs =>
  ⟨fun _ _ _ hport hdec => step_of_decodeItem_ok hs hport hdec,
    fun _ _ _ hport hdec => step_of_decodeItem_error hs hport hdec, step_ready_idle hs⟩

/-- A source is not short exactly where its box is empty or it covers the box (43_glyph R112). -/
theorem sourceShort_eq_false_iff {w h : Int} {src : List Byte} :
    sourceShort w h src = false ↔ (0 < w → 0 < h → bitmapBytes w h ≤ src.length) := by
  refine ⟨fun hshort hw hh => Nat.not_lt.1 fun hlen => ?_, sourceShort_eq_false⟩
  rw [sourceShort_eq_true hw hh hlen] at hshort
  cases hshort

/-- The operands that are refused: mode 3 and a short source (30_encoding R58, 43_glyph R112). -/
theorem refusedOperand_eq_none_iff (i : Instr) : refusedOperand i = none ↔
    i ≠ .setAddrMode 3 ∧ ∀ x y w h src, i = .drawBitmap x y w h src → 0 < w → 0 < h → bitmapBytes w h ≤ src.length := by
  cases i
  case setAddrMode mode => simp [refusedOperand]
  case drawBitmap x y w h src =>
    constructor
    · intro hnone
      refine ⟨nofun, fun x' y' w' h' src' heq => ?_⟩
      cases heq
      refine sourceShort_eq_false_iff.1 (Bool.eq_false_iff.2 fun hshort => ?_)
      rw [refusedOperand, if_pos hshort] at hnone
      cases hnone
    · rintro ⟨-, hlen⟩
      rw [refusedOperand, sourceShort_eq_false_iff.2 (hlen x y w h src rfl)]
      rfl
  all_goals exact iff_of_true rfl ⟨nofun, nofun⟩

/-- An accepting state refuses an instruction for its operands alone. -/
theorem exec_completes_iff {s : State} (hs : s.accepting) (i : Instr) :
    (∃ t, exec i s = .next t) ↔ refusedOperand i = none := by
  refine ⟨fun ⟨t, hexec⟩ => ?_, fun hok => ⟨_, exec_accepting hs hok⟩⟩
  obtain ⟨-, hok, -⟩ := exec_next hexec
  exact hok

/-- Settles O16: `exec_completes_iff`, with the operands that are refused written out (`refusedOperand_eq_none_iff`). -/
theorem everyAcceptedRequestCompletes : Obligations.EveryAcceptedRequestCompletes :=
  fun i _ hs => (exec_completes_iff hs i).trans (refusedOperand_eq_none_iff i)

end Sys2Proof.Spec
end

section
/-! PROOFS. Commands as sequences of WRCMD (30_encoding R62, 70_reset R162): the setters and the `wire.*` rows, the bytes of
the rows by their patterns, and a setter against its row. -/

namespace Sys2Proof.Spec
open Sys2Proof.Machine

/-! ### Bytes written one after another -/

theorem accepting_afterFrame {s : State} (hs : s.accepting) (f : Bool × Byte) : (afterFrame s f).accepting := hs

theorem exec_wrcmd {s : State} (hs : s.accepting) (b : Byte) : exec (.wrcmd b) s = .next (afterFrame s (false, b)) :=
  (writeSendsOneFrame s b hs).1

/-- WRCMDs one after another send their bytes as Command frames (40_serial R71). -/
theorem runAll_wrcmds (bs : List Byte) : ∀ {s : State}, s.accepting →
    runAll (bs.map Instr.wrcmd) s = .next (afterCommand s bs) := by
  induction bs with
  | nil => exact fun _ => rfl
  | cons b bs ih =>
    intro s hs
    rw [List.map_cons, runAll_cons (exec_wrcmd hs b)]
    exact ih (accepting_afterFrame hs (false, b))

/-! ### How many frames an instruction sends -/

/-- The frames of an instruction, counted by its mnemonic (30_encoding R54, 43_glyph R116). -/
theorem framesOf_length (i : Instr) (s : State) : (framesOf s i).length = frameCount s.inst i := by
  cases i
  case flush => exact flushFrames_length s.inst s.fb
  all_goals rfl

/-! ### The setters -/

/-- What a setter sends is a command that depends on its operands alone (41_controller R80). -/
theorem framesOf_setter {i : Instr} (h : isSetter i = true) : ∃ bs, ∀ s, framesOf s i = commandFrames bs := by
  cases i
  case setContrast | setDispMode | setDisplayOn | setColStart | setAddrMode | setColRange | setPageRange | setPageStart
      | setStartLine | setSegRemap | setMuxRatio | setComScan | setOffset | setComPins | setClock | setPrecharge
      | setVcomh | setChargePump => exact ⟨_, fun _ => rfl⟩
  all_goals cases h

/-- A setter has one to three frames (30_encoding R54). -/
theorem frameCount_setter {i : Instr} (h : isSetter i = true) (p : Params) :
    1 ≤ frameCount p i ∧ frameCount p i ≤ 3 := by
  cases i
  case setContrast | setDispMode | setDisplayOn | setColStart | setAddrMode | setColRange | setPageRange | setPageStart
      | setStartLine | setSegRemap | setMuxRatio | setComScan | setOffset | setComPins | setClock | setPrecharge
      | setVcomh | setChargePump => simp [frameCount]
  all_goals cases h

theorem isDrawing_of_isSetter {i : Instr} (h : isSetter i = true) : isDrawing i = false := by
  cases i
  case clear | fill | setPixel | drawRect | fillRect | drawChar | drawString | drawBitmap | drawNumber => cases h
  all_goals rfl

/-- A setter refuses mode 3 alone (41_controller R85). -/
theorem refusedOperand_setter {i : Instr} (h : isSetter i = true) (hmode : i ≠ .setAddrMode 3) :
    refusedOperand i = none := by
  refine (refusedOperand_eq_none_iff i).2 ⟨hmode, fun x y w h' src heq => ?_⟩
  rw [heq] at h
  cases h

/-- Settles O21: a setter sends a command (`framesOf_setter`), which is the WRCMDs of its bytes (`runAll_wrcmds`). -/
theorem settersAreWrcmdSequences : Obligations.SettersAreWrcmdSequences := by
  intro i hsetter hmode
  obtain ⟨bs, hframes⟩ := framesOf_setter hsetter
  have hlen : bs.length = frameCount Config.params i := by
    have hcount := framesOf_length i State.reset
    rwa [hframes, commandFrames, List.length_map] at hcount
  obtain ⟨hmin, hmax⟩ := frameCount_setter hsetter Config.params
  refine ⟨bs, hlen ▸ hmin, hlen ▸ hmax, fun s hs => ?_⟩
  have hexec : exec i s = .next (afterCommand s bs) :=
    exec_of_command hs (refusedOperand_setter hsetter hmode)
      (drawnBy_of_not_drawing (isDrawing_of_isSetter hsetter) s) (hframes s)
  exact ⟨hexec.trans (runAll_wrcmds bs hs).symm, hexec⟩

/-! ### The wire rows -/

/-- A wire row sends its own bytes, draws nothing and refuses nothing (30_encoding R59; log 5). -/
theorem exec_wireRow {i : Instr} {s : State} (hs : s.accepting) (h : i.wireBytes ≠ []) :
    exec i s = .next (afterCommand s i.wireBytes) := by
  cases i
  case wireContrast | wireDispMode | wireDisplayOn | wireColStart | wireAddrMode | wireColRange | wirePageRange
      | wirePageStart | wireStartLine | wireSegRemap | wireMuxRatio | wireComScan | wireOffset | wireComPins | wireClock
      | wirePrecharge | wireVcomh | wireChargePump => exact exec_of_command hs rfl rfl rfl
  all_goals exact absurd rfl h

/-- Settles O24: both sides are the row's bytes as Command frames. -/
theorem wireRowsAreWrcmdSequences : Obligations.WireRowsAreWrcmdSequences :=
  fun _ _ hs hbytes => (exec_wireRow hs hbytes).trans (runAll_wrcmds _ hs).symm

theorem wireBytes_dispMode : ∀ sel, (Instr.wireDispMode sel).wireBytes = [trunc8 (0xA4 + sel.toNat)] := by decide

theorem wireBytes_displayOn : ∀ o, (Instr.wireDisplayOn o).wireBytes = [trunc8 (0xAE + o.toNat)] := by decide

theorem wireBytes_colStart :
    ∀ l h, (Instr.wireColStart l h).wireBytes = [trunc8 l.toNat, trunc8 (0x10 + h.toNat)] := by decide

theorem wireBytes_addrMode : ∀ m, (Instr.wireAddrMode m).wireBytes = [0x20, trunc8 m.toNat] := by decide

theorem wireBytes_pageStart : ∀ p, (Instr.wirePageStart p).wireBytes = [trunc8 (0xB0 + p.toNat)] := by decide

theorem wireBytes_startLine : ∀ l, (Instr.wireStartLine l).wireBytes = [trunc8 (0x40 + l.toNat)] := by decide

theorem wireBytes_segRemap : ∀ b, (Instr.wireSegRemap b).wireBytes = [trunc8 (0xA0 + b.toNat)] := by decide

theorem wireBytes_comScan : ∀ b, (Instr.wireComScan b).wireBytes = [trunc8 (0xC0 + 8 * b.toNat)] := by decide

theorem wireBytes_comPins :
    ∀ r q, (Instr.wireComPins r q).wireBytes = [0xDA, trunc8 (32 * r.toNat + 16 * q.toNat + 2)] := by decide

theorem wireBytes_clock :
    ∀ f d, (Instr.wireClock f d).wireBytes = [0xD5, trunc8 (16 * f.toNat + d.toNat)] := by decide

theorem wireBytes_precharge :
    ∀ q p, (Instr.wirePrecharge q p).wireBytes = [0xD9, trunc8 (16 * q.toNat + p.toNat)] := by decide

theorem wireBytes_vcomh : ∀ c, (Instr.wireVcomh c).wireBytes = [0xDB, trunc8 (16 * c.toNat)] := by decide

theorem wireBytes_chargePump : ∀ e, (Instr.wireChargePump e).wireBytes = [0x8D, trunc8 (0x10 + 4 * e.toNat)] := by
  decide

/-- A wire row by the numbers of its pattern. -/
theorem exec_wireRow_of_eq {i : Instr} {s : State} {b : Byte} {bs : List Byte} (hs : s.accepting)
    (h : i.wireBytes = b :: bs) : exec i s = .next (afterCommand s (b :: bs)) :=
  h ▸ exec_wireRow hs (h ▸ List.cons_ne_nil b bs)

/-- Settles O22: each row sends its bytes (`exec_wireRow_of_eq`), and they are its pattern read as numbers. -/
theorem wireRowsSendTheirPatterns : Obligations.WireRowsSendTheirPatterns := fun _ hs =>
  ⟨fun v => exec_wireRow_of_eq (i := .wireContrast v) hs rfl,
    fun sel => exec_wireRow_of_eq hs (wireBytes_dispMode sel),
    fun o => exec_wireRow_of_eq hs (wireBytes_displayOn o),
    fun l h => exec_wireRow_of_eq hs (wireBytes_colStart l h),
    fun m => exec_wireRow_of_eq hs (wireBytes_addrMode m),
    fun a b => exec_wireRow_of_eq (i := .wireColRange a b) hs rfl,
    fun a b => exec_wireRow_of_eq (i := .wirePageRange a b) hs rfl,
    fun p => exec_wireRow_of_eq hs (wireBytes_pageStart p),
    fun l => exec_wireRow_of_eq hs (wireBytes_startLine l),
    fun b => exec_wireRow_of_eq hs (wireBytes_segRemap b),
    fun r => exec_wireRow_of_eq (i := .wireMuxRatio r) hs rfl,
    fun b => exec_wireRow_of_eq hs (wireBytes_comScan b),
    fun o => exec_wireRow_of_eq (i := .wireOffset o) hs rfl,
    fun r q => exec_wireRow_of_eq hs (wireBytes_comPins r q),
    fun f d => exec_wireRow_of_eq hs (wireBytes_clock f d),
    fun q p => exec_wireRow_of_eq hs (wireBytes_precharge q p),
    fun c => exec_wireRow_of_eq hs (wireBytes_vcomh c),
    fun e => exec_wireRow_of_eq hs (wireBytes_chargePump e)⟩

/-! ### A setter against its row -/

/-- Two instructions that refuse no operand, draw nothing and send the same frames answer the same in every state. -/
theorem exec_eq_of_same_frames {i j : Instr} {s : State} (hi : refusedOperand i = none)
    (hj : refusedOperand j = none) (hidraw : drawnBy s i = s) (hjdraw : drawnBy s j = s)
    (hsend : framesOf s i = framesOf s j) : exec i s = exec j s := by
  rw [exec_eq, exec_eq, hi, hj, ranTo, ranTo, hidraw, hjdraw, hsend]

theorem dispModeBytes_eq_wireBytes : ∀ sel, dispModeBytes sel = (Instr.wireDispMode sel).wireBytes := by decide

theorem displayOnBytes_eq_wireBytes : ∀ on, displayOnBytes on = (Instr.wireDisplayOn on).wireBytes := by decide

theorem colStartBytes_eq_wireBytes :
    ∀ v, colStartBytes v = (Instr.wireColStart (v.extractLsb' 0 4) (v.extractLsb' 4 4)).wireBytes := by decide

theorem addrModeBytes_eq_wireBytes : ∀ mode, addrModeBytes mode = (Instr.wireAddrMode mode).wireBytes := by decide

theorem pageStartBytes_eq_wireBytes :
    ∀ p : BitVec 4, pageStartBytes (p.setWidth 8) = (Instr.wirePageStart p).wireBytes := by decide

theorem startLineBytes_eq_wireBytes :
    ∀ l : BitVec 6, startLineBytes (l.setWidth 8) = (Instr.wireStartLine l).wireBytes := by decide

theorem segRemapBytes_eq_wireBytes : ∀ b, segRemapBytes b = (Instr.wireSegRemap b).wireBytes := by decide

theorem comScanBytes_eq_wireBytes : ∀ b, comScanBytes b = (Instr.wireComScan b).wireBytes := by decide

theorem comPinsBytes_eq_wireBytes :
    ∀ seq remap, comPinsBytes seq remap = (Instr.wireComPins remap seq).wireBytes := by decide

theorem clockBytes_eq_wireBytes :
    ∀ d f : BitVec 4, clockBytes (d.setWidth 8) (f.setWidth 8) = (Instr.wireClock f d).wireBytes := by decide

theorem prechargeBytes_eq_wireBytes :
    ∀ p q : BitVec 4, prechargeBytes (p.setWidth 8) (q.setWidth 8) = (Instr.wirePrecharge q p).wireBytes := by decide

/-- The level codes of the setter are the legal ones of the row (41_controller R97). -/
theorem vcomhBytes_eq_wireBytes :
    ∀ sel : U2, ∃ c, vcomhLegal c = true ∧ vcomhBytes sel = (Instr.wireVcomh c).wireBytes := by decide

theorem chargePumpBytes_eq_wireBytes : ∀ e, chargePumpBytes e = (Instr.wireChargePump e).wireBytes := by decide

/-- Settles O23: setter and row send the same bytes (`exec_eq_of_same_frames`). -/
theorem settersEqualTheirWireRows : Obligations.SettersEqualTheirWireRows := fun _ =>
  ⟨fun _ => exec_eq_of_same_frames rfl rfl rfl rfl rfl,
    fun sel => exec_eq_of_same_frames rfl rfl rfl rfl (congrArg commandFrames (dispModeBytes_eq_wireBytes sel)),
    fun on => exec_eq_of_same_frames rfl rfl rfl rfl (congrArg commandFrames (displayOnBytes_eq_wireBytes on)),
    fun v => exec_eq_of_same_frames rfl rfl rfl rfl (congrArg commandFrames (colStartBytes_eq_wireBytes v)),
    fun mode hmode => exec_eq_of_same_frames (refusedOperand_setAddrMode hmode) rfl rfl rfl
      (congrArg commandFrames (addrModeBytes_eq_wireBytes mode)),
    fun _ _ => exec_eq_of_same_frames rfl rfl rfl rfl rfl,
    fun _ _ => exec_eq_of_same_frames rfl rfl rfl rfl rfl,
    fun p => exec_eq_of_same_frames rfl rfl rfl rfl (congrArg commandFrames (pageStartBytes_eq_wireBytes p)),
    fun l => exec_eq_of_same_frames rfl rfl rfl rfl (congrArg commandFrames (startLineBytes_eq_wireBytes l)),
    fun b => exec_eq_of_same_frames rfl rfl rfl rfl (congrArg commandFrames (segRemapBytes_eq_wireBytes b)),
    fun _ => exec_eq_of_same_frames rfl rfl rfl rfl rfl,
    fun b => exec_eq_of_same_frames rfl rfl rfl rfl (congrArg commandFrames (comScanBytes_eq_wireBytes b)),
    fun _ => exec_eq_of_same_frames rfl rfl rfl rfl rfl,
    fun seq remap => exec_eq_of_same_frames rfl rfl rfl rfl
      (congrArg commandFrames (comPinsBytes_eq_wireBytes seq remap)),
    fun d f => exec_eq_of_same_frames rfl rfl rfl rfl (congrArg commandFrames (clockBytes_eq_wireBytes d f)),
    fun p q => exec_eq_of_same_frames rfl rfl rfl rfl (congrArg commandFrames (prechargeBytes_eq_wireBytes p q)),
    fun sel => (vcomhBytes_eq_wireBytes sel).imp fun _ ⟨hlegal, hbytes⟩ =>
      ⟨hlegal, exec_eq_of_same_frames rfl rfl rfl rfl (congrArg commandFrames hbytes)⟩,
    fun e => exec_eq_of_same_frames rfl rfl rfl rfl (congrArg commandFrames (chargePumpBytes_eq_wireBytes e))⟩

end Sys2Proof.Spec
end

section
/-! PROOFS. More of the pixel and bitmap operations (42_pixel R103, R105; 20_memory R40): a pixel set and cleared, the whole
buffer as a box, and a source byte drawn on a page. -/

namespace Sys2Proof.Spec
open Sys2Proof.Machine

/-- A block that takes requests has whole pages (20_memory R41). -/
theorem height_of_accepting {s : State} (hs : s.accepting) : s.inst.H = 8 * s.inst.NP := by
  obtain ⟨-, -, -, hH, -⟩ := hs.1.facts
  exact hH

/-! ### A pixel set and cleared -/

/-- Setting and then clearing a bit that was clear gives the byte back (20_memory R35). -/
theorem updateBit_clear_set {b : Byte} {n : Nat} (hn : n < 8) (hb : b.getLsbD n = false) :
    updateBit (updateBit b (1#8 <<< n) 1) (1#8 <<< n) 0 = b := by
  refine BitVec.eq_of_getLsbD_eq fun k hk => ?_
  rw [updateBit_bit _ _ _ _ hn hk, updateBit_bit _ _ _ _ hn hk]
  by_cases hkn : k = n
  · rw [if_pos hkn, hkn, hb]
    rfl
  · rw [if_neg hkn, if_neg hkn]

/-- Setting and then clearing a pixel that was off gives the buffer back: the one byte touched is as it was. -/
theorem putPixel_clear_set {p : Params} {fb : Memory} (hfb : fb.wf) {q : Int × Int}
    (hoff : pixelOn p fb q.1 q.2 = false) : putPixel p 0 (putPixel p 1 fb q) q = fb := by
  have hset : (putPixel p 1 fb q).wf := wf_putPixel hfb p 1 q
  refine Memory.ext_of_wf (wf_putPixel hset p 0 q) hfb fun a => ?_
  rw [read_putPixel hset, read_putPixel hfb]
  by_cases ha : inRange p q.1 q.2 ∧ (convert p.W q.1.toNat q.2.toNat).index = a
  · obtain ⟨hin, rfl⟩ := ha
    rw [pixelOn, hin, Bool.true_and] at hoff
    rw [if_pos ⟨hin, rfl⟩, if_pos ⟨hin, rfl⟩]
    exact updateBit_clear_set (Nat.mod_lt _ (by decide)) hoff
  · rw [if_neg ha, if_neg ha]

/-- Settles O27: each SETPIXEL is the plot of its pixel; the second undoes the first exactly where it changed nothing
else (`putPixel_clear_set`). -/
theorem setThenClearPixel : Obligations.SetThenClearPixel := by
  intro s x y hs hfb hxy
  have hexec (s : State) (hs : s.accepting) (color : Bit) :
      exec (.setPixel x y color) s = .next (draw (plot s.inst color [(x, y)]) s) := exec_of_drawing hs rfl rfl rfl
  have ht : (draw (plot s.inst 1 [(x, y)]) s).accepting := hs
  have htfb : (draw (plot s.inst 1 [(x, y)]) s).fb.wf := wf_plot hfb _ _ _
  have hclear : pix (draw (plot s.inst 0 [(x, y)]) (draw (plot s.inst 1 [(x, y)]) s)) x y = false :=
    (pix_plot ht htfb 0 _ hxy).trans (if_pos (List.mem_singleton_self _))
  refine ⟨_, _, hexec s hs 1, hexec _ ht 0, hclear, fun px py hp hne => ?_, fun hus => ?_, fun hoff => ?_⟩
  · have hmem : (px, py) ∉ [(x, y)] := mt List.mem_singleton.1 hne
    exact ((pix_plot ht htfb 0 _ hp).trans (if_neg hmem)).trans ((pix_plot hs hfb 1 _ hp).trans (if_neg hmem))
  · rw [← hclear]
    exact congrArg (pix · x y) hus.symm
  · rw [pix_eq_pixelOn hs hxy] at hoff
    exact congrArg (fun fb => { s with fb := fb }) (putPixel_clear_set (q := (x, y)) hfb hoff)

/-! ### The whole buffer as a box -/

/-- Plotting every pixel of the buffer fills it with the byte whose bits are all the colour (42_pixel R105). -/
theorem plot_wholeBuffer {p : Params} (hlegal : instLegal p) {fb : Memory} (hfb : fb.wf) (hin : fb.below p.NB)
    {color : Bit} {b : Byte} (hb : ∀ k < 8, b.getLsbD k = (color == 1)) :
    plot p color (boxPixels 0 0 p.W p.H) fb = fillBytes p b fb := by
  obtain ⟨hW, -, -, hH, -⟩ := hlegal.facts
  refine fb_eq_of_pixels hH hW (wf_plot hfb _ _ _) (wf_fillBytes hfb _ _) (below_plot hH hin _ _)
    (below_fillBytes hin _) fun x y hxy => ?_
  obtain ⟨hx, hxW, hy, hyH⟩ := inRange_iff.1 hxy
  have hmem : (x, y) ∈ boxPixels 0 0 p.W p.H := mem_boxPixels.2 (by omega)
  have hindex : y.toNat / 8 * p.W + x.toNat < p.NB := index_lt (page_lt hH (by omega)) (by omega)
  rw [pixelOn_plot hfb _ _ _ hxy, if_pos hmem, pixelOn, hxy, Bool.true_and, read_fillBytes hfb, if_pos hindex,
    hb _ (Nat.mod_lt _ (by decide))]

theorem draw_congr {f g : Memory → Memory} {s : State} (h : f s.fb = g s.fb) : draw f s = draw g s := by
  rw [draw, draw, h]

/-- Settles O30: FILLRECT plots the box and FILL or CLEAR fills the buffer, which is the same (`plot_wholeBuffer`). -/
theorem fillRectOfTheWholeBuffer : Obligations.FillRectOfTheWholeBuffer := by
  intro s hs hfb hin
  have hbox (color : Bit) (b : Byte) (hb : ∀ k < 8, b.getLsbD k = (color == 1)) :
      exec (.fillRect 0 0 s.inst.W s.inst.H color) s = .next (draw (fillBytes s.inst b) s) :=
    exec_of_drawing hs rfl rfl (draw_congr (plot_wholeBuffer hs.1 hfb hin hb))
  exact ⟨(hbox 1 0xFF (by decide)).trans (exec_of_drawing (i := .fill 0xFF) hs rfl rfl rfl).symm,
    (hbox 0 0x00 (by decide)).trans (exec_of_drawing (i := .clear) hs rfl rfl rfl).symm⟩

/-! ### A source byte on a page -/

/-- Bit `k` of a byte of FB is the pixel in row `k` of its page (20_memory R31). -/
theorem getLsbD_readFB (s : State) (page c : Nat) {k : Nat} (hk : k < 8) :
    (s.readFB (page * s.inst.W + c)).getLsbD k = pix s (c : Int) (8 * (page : Int) + (k : Int)) := by
  have hrow : (8 * (page : Int) + (k : Int)).toNat = 8 * page + k := by omega
  have hpage : (8 * page + k) / 8 = page := by omega
  have hbit : (8 * page + k) % 8 = k := by omega
  rw [pix, hrow, hpage, hbit, Int.toNat_natCast]

/-- Column `i`, row `k` of an 8 row source is on where bit `7 - k` of its byte `i` is 1 (20_memory R40). -/
theorem mem_bitmapPixels_band (x y : Int) {w : Int} (src : List Byte) {i k : Nat} (hi : i < w.toNat) (hk : k < 8) :
    (x + (i : Int), y + (k : Int)) ∈ bitmapPixels x y w 8 src ↔ (src.getD i 0).getLsbD (7 - k) = true := by
  have hcol : (x + (i : Int) - x).toNat = i := by omega
  have hrow : (y + (k : Int) - y).toNat = k := by omega
  have hband : k / 8 * w.toNat + i = i := by rw [Nat.div_eq_of_lt hk, Nat.zero_mul, Nat.zero_add]
  rw [mem_bitmapPixels, hcol, hrow, sourceBit, hband, Nat.mod_eq_of_lt hk]
  exact and_iff_right (by omega)

theorem getLsbD_reverse_byte (b : Byte) {k : Nat} (hk : k < 8) : b.reverse.getLsbD k = b.getLsbD (7 - k) := by
  rw [BitVec.getLsbD_reverse, BitVec.getMsbD_eq_getLsbD, decide_eq_true hk, Bool.true_and]

/-- Settles O36: row `k` of the page takes bit `7 - k` of the source byte, which is its reversal (20_memory R40). -/
theorem bitmapByteIsReversedInTheBuffer : Obligations.BitmapByteIsReversedInTheBuffer := by
  intro s page x w src hs hfb hpage hw hlen
  have hbytes : bitmapBytes w 8 = w.toNat := Nat.one_mul _
  have hH : s.inst.H = 8 * s.inst.NP := height_of_accepting hs
  refine ⟨_, exec_drawBitmap hs _ _ fun _ _ => hbytes ▸ hlen, fun i hi hxi => BitVec.eq_of_getLsbD_eq fun k hk => ?_⟩
  have hon : onBuffer s ((x : Int) + (i : Int)) (8 * (page : Int) + (k : Int)) := by
    unfold onBuffer
    omega
  have hbefore := getLsbD_readFB s page (x + i) hk
  have hafter := getLsbD_readFB (draw (plot s.inst 1 (bitmapPixels x (8 * (page : Int)) w 8 src)) s) page (x + i) hk
  rw [Nat.cast_add] at hbefore hafter
  rw [pix_plot hs hfb 1 _ hon, if_congr (mem_bitmapPixels_band _ _ src hi hk) rfl rfl, ← hbefore] at hafter
  rw [BitVec.getLsbD_or, getLsbD_reverse_byte _ hk]
  refine hafter.trans ?_
  cases (src.getD i 0).getLsbD (7 - k) <;> simp

end Sys2Proof.Spec
end

section
/-! PROOFS. More of the text operations (43_glyph R110 to R114): what one glyph and a text leave unchanged, glyphs outside
the buffer, DRAWSTRING as DRAWCHARs, and the digits of a number. -/

namespace Sys2Proof.Spec
open Sys2Proof.Machine Sys2Proof.Laws

/-! ### What a drawing operation can change -/

/-- Field by field. -/
theorem onlyFBFree_iff {s t : State} : onlyFBFree s t ↔
    t.inst = s.inst ∧ t.phase = s.phase ∧ t.pins = s.pins ∧ t.trace = s.trace ∧ t.port = s.port := by
  cases s
  cases t
  simp only [onlyFBFree, State.mk.injEq, true_and, and_true]

theorem onlyFBFree_drawnBy (i : Instr) (s : State) : onlyFBFree s (drawnBy s i) :=
  onlyFBFree_iff.2 ⟨drawnBy_inst i s, drawnBy_phase i s, drawnBy_pins i s, drawnBy_trace i s, drawnBy_port i s⟩

/-- A drawing operation sends nothing (42_pixel R100). -/
theorem framesOf_drawing {i : Instr} (h : isDrawing i = true) (s : State) : framesOf s i = [] := by
  cases i
  case clear | fill | setPixel | drawRect | fillRect | drawChar | drawString | drawBitmap | drawNumber => rfl
  all_goals cases h

/-- A drawing operation that runs leaves what it draws. -/
theorem exec_drawing_next {i : Instr} {s t : State} (h : isDrawing i = true) (hexec : exec i s = .next t) :
    s.accepting ∧ t = drawnBy s i := by
  obtain ⟨hs, -, rfl⟩ := exec_next hexec
  exact ⟨hs, ranTo_of_no_frames i s (framesOf_drawing h s)⟩

/-- Settles O43: what is drawn leaves every field but FB and the counter (`onlyFBFree_drawnBy`). -/
theorem drawingTouchesOnlyFB : Obligations.DrawingTouchesOnlyFB := by
  intro i s t hdraw hexec
  obtain ⟨-, rfl⟩ := exec_drawing_next hdraw hexec
  exact onlyFBFree_drawnBy i s

/-! ### One glyph -/

/-- The byte of a code with a glyph stands in the table (20_memory R38). -/
theorem glyphByte_eq_table {p : Params} (hp : p.glyph.length = 480) (free : Nat) {ch : Byte} (hch : inTable ch = true)
    {col : Nat} (hcol : col < 5) : some (glyphByte p free ch col) = p.glyph[(ch.toNat - 32) * 5 + col]? := by
  have hrange : 32 ≤ ch.toNat ∧ ch.toNat ≤ 127 := by simpa [inTable] using hch
  have hlt : (ch.toNat - 32) * 5 + col < p.glyph.length := by omega
  rw [glyphByte, if_pos hch, List.getD_eq_getElem _ _ hlt, List.getElem?_eq_getElem hlt]

/-- A pixel after a glyph: row `py - y` below 8 of column `px - x` (43_glyph R110). -/
theorem pix_drawGlyph {s : State} (hs : s.accepting) (hfb : s.fb.wf) (x y : Int) (ch : Byte) {px py : Int}
    (hp : onBuffer s px py) : pix (drawGlyph x y ch s) px py =
      (pix s px py || (decide (0 ≤ y ∧ y < s.inst.H ∧ x ≤ px ∧ px < x + 5 ∧ y ≤ py ∧ py < y + 8)
        && (glyphByte s.inst s.free ch (px - x).toNat).getLsbD (py - y).toNat)) := by
  have hdrawn : pix (drawGlyph x y ch s) px py = pixelOn s.inst (drawGlyph x y ch s).fb px py :=
    pix_eq_pixelOn (s := drawGlyph x y ch s) hs hp
  rw [hdrawn, drawGlyph_fb, pixelOn_mergeGlyph (height_of_accepting hs) hfb x y _ (inRange_iff_onBuffer.2 hp),
    pix_eq_pixelOn hs hp, Bool.eq_iff_iff]
  simp only [Bool.or_eq_true, Bool.and_eq_true, decide_eq_true_eq]
  refine or_congr_right ⟨fun ⟨hy, hx, hle, hbit⟩ => ?_, fun ⟨hbox, hbit⟩ => ?_⟩
  · have hrow : (py - y).toNat < 8 := BitVec.lt_of_getLsbD hbit
    exact ⟨by omega, hbit⟩
  · exact ⟨by omega, by omega, by omega, hbit⟩

/-- A byte outside the visible columns of a text of `n` characters, in the page of `y` and the next (43_glyph R110,
R111). -/
def MissesColumns (s : State) (x y : Int) (n a : Nat) : Prop :=
  ∀ k col : Nat, k < n → col < 5 → onBuffer s (x + 6 * k + col) y →
    a ≠ y.toNat / 8 * s.inst.W + (x + 6 * k + col).toNat
    ∧ (y.toNat / 8 + 1 < s.inst.NP → a ≠ (y.toNat / 8 + 1) * s.inst.W + (x + 6 * k + col).toNat)

/-- A text leaves every byte as it was that misses its columns (43_glyph R111). -/
theorem read_drawText_other {y : Int} {a : Nat} (t : List Byte) : ∀ (x : Int) {s : State},
    s.inst.H = 8 * s.inst.NP → s.fb.wf → MissesColumns s x y t.length a →
      (drawText x y t s).fb.read a = s.fb.read a := by
  induction t with
  | nil => exact fun _ _ _ _ _ => rfl
  | cons ch t ih =>
    intro x s hH hfb hmiss
    have hrest : MissesColumns (drawGlyph x y ch s) (x + 6) y t.length a := fun k col hk hcol hon => by
      have hpitch : x + 6 * ((k + 1 : Nat) : Int) + col = x + 6 + 6 * k + col := by omega
      have hnext := hmiss (k + 1) col (Nat.succ_lt_succ hk) hcol
      rw [hpitch] at hnext
      exact hnext hon
    refine (ih (x + 6) (s := drawGlyph x y ch s) hH (wf_mergeGlyph hH hfb x y _) hrest).trans ?_
    refine read_mergeGlyph_other hH hfb x y _ fun hy hyH col hcol hx hxW => ?_
    have hfirst := hmiss 0 col (Nat.succ_pos _) hcol
    rw [Nat.cast_zero, Int.mul_zero, Int.add_zero] at hfirst
    obtain ⟨hpage, hspill⟩ := hfirst ⟨hx, hxW, hy, hyH⟩
    exact ⟨hpage.symm, fun hnext => (hspill hnext).symm⟩

/-- DRAWCHAR is the text of its one character. -/
theorem drawText_singleton (x y : Int) (ch : Byte) (s : State) : drawText x y [ch] s = drawGlyph x y ch s := rfl

/-- Settles O31: the glyph's bytes are those of `glyphByte`; its pixels are `pix_drawGlyph`, the bytes it leaves those of a
text of one character. -/
theorem drawCharMergesTheGlyph : Obligations.DrawCharMergesTheGlyph := by
  intro s x y ch hs hfb
  obtain ⟨-, -, -, hH, -, -, -, hglyph⟩ := hs.1.facts
  refine ⟨_, glyphByte s.inst s.free ch, exec_drawChar hs x y ch, rfl, fun h32 h127 => ?_,
    fun px py hp => pix_drawGlyph hs hfb x y ch hp, fun a ha => ?_⟩
  · have hch : inTable ch = true := by simp [inTable, h32, h127]
    exact ⟨if_pos hch, fun col hcol => glyphByte_eq_table hglyph s.free hch hcol⟩
  · have hmiss : MissesColumns s x y 1 a := fun k col hk hcol => by
      obtain rfl : k = 0 := Nat.lt_one_iff.1 hk
      rw [Nat.cast_zero, Int.mul_zero, Int.add_zero]
      exact ha col hcol
    rw [readFB_ready (s := drawGlyph x y ch s) hs.2, readFB_ready hs.2, ← drawText_singleton]
    exact read_drawText_other [ch] x hH hfb hmiss

/-- Columns left or right of the buffer are skipped (43_glyph R110). -/
theorem mergeColumns_of_hidden {p : Params} {x : Int} {page s : Nat} {g : Nat → Byte} {cols : List Nat}
    (hcols : ∀ col ∈ cols, x + (col : Int) < 0 ∨ (p.W : Int) ≤ x + (col : Int)) (fb : Memory) :
    mergeColumns p x page s g cols fb = fb := by
  induction cols with
  | nil => rfl
  | cons col cols ih =>
    unfold mergeColumns
    split_ifs with hright hleft
    · rfl
    · exact ih fun c hc => hcols c (List.mem_cons_of_mem _ hc)
    · exact absurd (hcols col List.mem_cons_self) (by omega)

/-- A glyph outside the buffer merges nothing (43_glyph R110). -/
theorem mergeGlyph_outside {p : Params} {x y : Int}
    (h : y < 0 ∨ (p.H : Int) ≤ y ∨ (p.W : Int) ≤ x ∨ x ≤ -5) (g : Nat → Byte) (fb : Memory) :
    mergeGlyph p x y g fb = fb := by
  unfold mergeGlyph
  split_ifs with hy
  · rfl
  · refine mergeColumns_of_hidden (fun col hcol => ?_) fb
    have hcol5 : col < 5 := List.mem_range.1 hcol
    omega

/-- Settles O32: nothing is merged, so only the counter of log 4 can differ. -/
theorem glyphOutsideDrawsNothing : Obligations.GlyphOutsideDrawsNothing := by
  intro s x y ch hs hout
  refine ⟨_, exec_drawChar hs x y ch, ?_⟩
  rw [drawGlyph, mergeGlyph_outside hout]

/-! ### Texts -/

theorem exec_drawString {s : State} (hs : s.accepting) (x y : Int) (t : List Byte) :
    exec (.drawString x y t) s = .next (drawText x y t s) :=
  exec_of_drawing hs rfl rfl rfl

/-- Settles O33: drawing a text is running its DRAWCHARs (`runAll_charRequests`). -/
theorem drawStringIsDrawChars : Obligations.DrawStringIsDrawChars := fun _ x y t hs =>
  ⟨(exec_drawString hs x y t).trans (runAll_charRequests y t x hs).symm, ⟨_, exec_drawString hs x y t⟩,
    fun h0 => RoundTrip.drawString x y t (wf_drawString x y h0)⟩

/-- Settles O34: both operations draw a text of `n` characters (`read_drawText_other`). -/
theorem textChangesOnlyItsColumns : Obligations.TextChangesOnlyItsColumns := by
  intro s u x y i n hfb hi hexec
  obtain ⟨hdrawing, t, hdraw, hn⟩ : isDrawing i = true ∧ ∃ t, drawnBy s i = drawText x y t s ∧ n = t.length := by
    obtain ⟨t, rfl, rfl⟩ | ⟨v, z, rfl, rfl⟩ := hi
    · exact ⟨rfl, t, rfl, rfl⟩
    · exact ⟨rfl, numberText v z, rfl, by rw [numberText_eq, List.length_map]⟩
  obtain ⟨hs, rfl⟩ := exec_drawing_next hdrawing hexec
  refine ⟨onlyFBFree_drawnBy i s, fun a ha => ?_⟩
  rw [readFB_ready ((drawnBy_phase i s).trans hs.2), readFB_ready hs.2, hdraw]
  exact read_drawText_other t x (height_of_accepting hs) hfb (hn ▸ ha)

/-! ### Digits -/

/-- With zeroFill all five digits are drawn (43_glyph R114). -/
theorem digits_true {v : Nat} (hv : v < 100000) : digits v true = fiveDigits v :=
  (digits_eq_shownDigits hv 1).trans (if_pos rfl)

/-- Without it the leading zeros among the first four are left out (43_glyph R114). -/
theorem digits_false {v : Nat} (hv : v < 100000) :
    digits v false = ((fiveDigits v).take 4).dropWhile (· = 0) ++ [v % 10] :=
  (digits_eq_shownDigits hv 0).trans (if_neg (by decide))

theorem fiveDigits_lt_ten (v : Nat) : ∀ d ∈ fiveDigits v, d < 10 := by
  intro d hd
  obtain ⟨q, -, rfl⟩ := List.mem_map.1 hd
  exact Nat.mod_lt _ (by decide)

/-- The number that decimal digits make up, the first the most significant. -/
def ofDigits (ds : List Nat) : Nat := ds.foldl (fun acc d => 10 * acc + d) 0

theorem ofDigits_append_singleton (ds : List Nat) (d : Nat) : ofDigits (ds ++ [d]) = 10 * ofDigits ds + d :=
  List.foldl_append ..

theorem ofDigits_fiveDigits {v : Nat} (hv : v < 100000) : ofDigits (fiveDigits v) = v := by
  simp only [ofDigits, fiveDigits, List.map_cons, List.map_nil, List.foldl_cons, List.foldl_nil]
  omega

/-- Leading zeros count nothing. -/
theorem ofDigits_dropWhile (ds : List Nat) : ofDigits (ds.dropWhile (· = 0)) = ofDigits ds := by
  induction ds with
  | nil => rfl
  | cons d ds ih =>
    cases d with
    | zero => exact ih
    | succ d => rfl

/-- The digits make up the value: those left out are leading zeros. -/
theorem ofDigits_digits {v : Nat} (hv : v < 100000) (z : Bool) : ofDigits (digits v z) = v := by
  cases z with
  | true => rw [digits_true hv, ofDigits_fiveDigits hv]
  | false =>
    calc ofDigits (digits v false) = 10 * ofDigits ((fiveDigits v).take 4) + v % 10 := by
          rw [digits_false hv, ofDigits_append_singleton, ofDigits_dropWhile]
      _ = ofDigits ((fiveDigits v).take 4 ++ [v / 1 % 10]) := by rw [ofDigits_append_singleton, Nat.div_one]
      _ = v := ofDigits_fiveDigits hv

theorem digits_lt_ten {v : Nat} (hv : v < 100000) (z : Bool) : ∀ d ∈ digits v z, d < 10 := by
  intro d hd
  cases z with
  | true => exact fiveDigits_lt_ten v d (digits_true hv ▸ hd)
  | false =>
    rw [digits_false hv, List.mem_append, List.mem_singleton] at hd
    obtain hd | rfl := hd
    · exact fiveDigits_lt_ten v d (List.take_subset _ _ ((List.dropWhile_sublist _).subset hd))
    · exact Nat.mod_lt _ (by decide)

/-- Without zeroFill at most four digits come before the units digit, and the first of them is not 0. -/
theorem digits_false_shape {v : Nat} (hv : v < 100000) : 1 ≤ (digits v false).length ∧ (digits v false).length ≤ 5
    ∧ (2 ≤ (digits v false).length → (digits v false).head? ≠ some 0) := by
  rw [digits_false hv, List.length_append, List.length_singleton]
  have hfour : (((fiveDigits v).take 4).dropWhile (· = 0)).length ≤ 4 := (List.dropWhile_sublist _).length_le
  refine ⟨by omega, by omega, fun htwo hhead => ?_⟩
  have hfirst := List.head?_dropWhile_not (p := (· = 0)) (l := (fiveDigits v).take 4)
  cases hds : ((fiveDigits v).take 4).dropWhile (· = 0) with
  | nil => simp [hds] at htwo
  | cons d ds =>
    rw [hds] at hhead hfirst
    obtain rfl := Option.some.inj hhead
    simp at hfirst

/-- Settles O38, from the facts above: a 16-bit value has at most five digits. -/
theorem digitsMakeUpTheValue : Obligations.DigitsMakeUpTheValue := by
  intro v hv
  have hfive : v < 100000 := hv.trans (by decide)
  exact ⟨fun z => ⟨ofDigits_digits hfive z, digits_lt_ten hfive z⟩, rfl, digits_false_shape hfive⟩

end Sys2Proof.Spec
end

section
/-! PROOFS. What every instruction keeps (20_memory R31, R36; 43_glyph R116; 41_controller R80): the overlay of the
glyph operations, the bytes past the buffer, the growth of the trace, and what an operation's outcome depends on. -/

namespace Sys2Proof.Spec
open Sys2Proof.Machine

/-! ### The overlay -/

/-- A text clears no pixel (20_memory R36, 43_glyph R111). -/
theorem pix_drawText_of_pix {y px py : Int} (t : List Byte) : ∀ (x : Int) {s : State}, s.accepting → s.fb.wf →
    onBuffer s px py → pix s px py = true → pix (drawText x y t s) px py = true := by
  induction t with
  | nil => exact fun _ _ _ _ _ hon => hon
  | cons ch t ih =>
    intro x s hs hfb hp hon
    refine ih (x + 6) (s := drawGlyph x y ch s) hs (wf_mergeGlyph (height_of_accepting hs) hfb x y _) hp ?_
    rw [pix_drawGlyph hs hfb x y ch hp, hon, Bool.true_or]

/-- A plot in colour 1 clears no pixel (43_glyph R112). -/
theorem pix_plot_one_of_pix {s : State} (hs : s.accepting) (hfb : s.fb.wf) (qs : List (Int × Int)) {px py : Int}
    (hp : onBuffer s px py) (hon : pix s px py = true) : pix (draw (plot s.inst 1 qs) s) px py = true := by
  rw [pix_plot hs hfb 1 qs hp, hon]
  exact ite_self true

/-- Settles O39: three of the operations draw a text and DRAWBITMAP plots in colour 1. -/
theorem overlayNeverClears : Obligations.OverlayNeverClears := by
  intro i s t hfb hi hexec px py hp hon
  obtain ⟨x, y, ch, rfl⟩ | ⟨x, y, u, rfl⟩ | ⟨x, y, w, h, src, rfl⟩ | ⟨x, y, v, z, rfl⟩ := hi
  all_goals obtain ⟨hs, rfl⟩ := exec_drawing_next rfl hexec
  · exact pix_drawText_of_pix [ch] x hs hfb hp hon
  · exact pix_drawText_of_pix u x hs hfb hp hon
  · exact pix_plot_one_of_pix hs hfb _ hp hon
  · exact pix_drawText_of_pix (numberText v z) x hs hfb hp hon

/-! ### Bytes past the buffer -/

section Outside
variable {s : State} {a : Nat} (hH : s.inst.H = 8 * s.inst.NP) (ha : s.inst.NB ≤ a)
include hH ha

/-- Every column of a text lies in the buffer (20_memory R42). -/
theorem missesColumns_outside (x y : Int) (n : Nat) : MissesColumns s x y n a := by
  intro k col _ _ hon
  obtain ⟨hx, hxW, hy, hyH⟩ := hon
  have hcol : (x + 6 * k + col).toNat < s.inst.W := by omega
  have hpage : y.toNat / 8 < s.inst.NP := page_lt hH (by omega)
  exact ⟨((index_lt hpage hcol).trans_le ha).ne', fun hnext => ((index_lt hnext hcol).trans_le ha).ne'⟩

/-- Every pixel plotted lies in the buffer (20_memory R34). -/
theorem read_plot_outside (hfb : s.fb.wf) (color : Bit) (qs : List (Int × Int)) :
    (plot s.inst color qs s.fb).read a = s.fb.read a := by
  refine read_plot_other hfb _ _ _ fun q _ hin => ?_
  obtain ⟨hx, hxW, hy, hyH⟩ := inRange_iff.1 hin
  exact ((index_lt (page_lt hH (by omega)) (by omega)).trans_le ha).ne

/-- No instruction changes a byte past the buffer (20_memory R31). -/
theorem read_drawnBy_outside (hfb : s.fb.wf) (i : Instr) : (drawnBy s i).fb.read a = s.fb.read a := by
  have hfill (b : Byte) : (fillBytes s.inst b s.fb).read a = s.fb.read a := by
    rw [read_fillBytes hfb, if_neg (Nat.not_lt.2 ha)]
  have htext (x y : Int) (t : List Byte) : (drawText x y t s).fb.read a = s.fb.read a :=
    read_drawText_other t x hH hfb (missesColumns_outside hH ha x y _)
  cases i
  case clear => exact hfill _
  case fill b => exact hfill b
  case setPixel x y color => exact read_plot_outside hH ha hfb color [(x, y)]
  case drawRect | fillRect | drawBitmap => exact read_plot_outside hH ha hfb _ _
  case drawChar x y ch => exact htext x y [ch]
  case drawString | drawNumber => exact htext _ _ _
  all_goals rfl

end Outside

/-- Settles O45, by `read_drawnBy_outside`. -/
theorem noByteOutsideTheBufferChanges : Obligations.NoByteOutsideTheBufferChanges := by
  intro i s t hfb hexec a ha
  obtain ⟨hs, -, rfl⟩ := exec_next hexec
  rw [readFB_ranTo i hs, readFB_ready hs.2, read_drawnBy_outside (height_of_accepting hs) ha hfb i]

/-! ### The trace, and what an outcome depends on -/

/-- Settles O46: what is appended is the instruction's frames, 27 events each (`framesOf_length`). -/
theorem traceGrowsByTheFrameCount : Obligations.TraceGrowsByTheFrameCount := by
  intro i s t hexec
  obtain ⟨-, -, rfl⟩ := exec_next hexec
  exact ⟨_, ranTo_trace i s, by rw [frames_events_length, framesOf_length]⟩

/-- Only FLUSH sends what depends on the state (41_controller R80). -/
theorem framesOf_eq {i : Instr} (h : i ≠ .flush) (s s' : State) : framesOf s i = framesOf s' i := by
  cases i
  case flush => exact absurd rfl h
  all_goals rfl

/-- What a text draws depends on the instance, FB and the counter alone (43_glyph R111; log 4). -/
theorem drawText_fb_congr {y : Int} (t : List Byte) : ∀ (x : Int) {s s' : State}, s.inst = s'.inst → s.fb = s'.fb →
    s.free = s'.free → (drawText x y t s).fb = (drawText x y t s').fb := by
  induction t with
  | nil => exact fun _ _ _ _ hfb _ => hfb
  | cons ch t ih =>
    intro x s s' hinst hfb hfree
    refine ih (x + 6) hinst ?_ ?_
    · rw [drawGlyph_fb, drawGlyph_fb, hinst, hfb, hfree]
    · rw [drawGlyph_free, drawGlyph_free, hfree]

/-- What an instruction draws depends on the same. -/
theorem drawnBy_fb_congr (i : Instr) {s s' : State} (hinst : s.inst = s'.inst) (hfb : s.fb = s'.fb)
    (hfree : s.free = s'.free) : (drawnBy s i).fb = (drawnBy s' i).fb := by
  cases i
  case clear | fill | setPixel | drawRect | fillRect | drawBitmap =>
    simp only [drawnBy, draw_fb, hinst, hfb]
  case drawChar x y ch => exact drawText_fb_congr [ch] x hinst hfb hfree
  case drawString | drawNumber => exact drawText_fb_congr _ _ hinst hfb hfree
  all_goals exact hfb

/-- Settles O47: the frames by `framesOf_eq`, FB by `drawnBy_fb_congr`. -/
theorem sendsDependOnOperandsAlone : Obligations.SendsDependOnOperandsAlone := by
  intro i s s' t t' hflush hexec hexec'
  obtain ⟨-, -, rfl⟩ := exec_next hexec
  obtain ⟨-, -, rfl⟩ := exec_next hexec'
  refine ⟨⟨_, ranTo_trace i s, framesOf_eq hflush s s' ▸ ranTo_trace i s'⟩, fun hinst hfb hfree => ?_⟩
  rw [ranTo_fb, ranTo_fb, drawnBy_fb_congr i hinst hfb hfree]

end Sys2Proof.Spec
end
